-- ==== Sys2Proof/Word.lean ====
section
/-! DEFINITION. The plain word types: a byte (R8), the 16-bit command word (R8, R61). -/

namespace Sys2Proof

/-- A byte is 8 bits (R8); bit 0 is the least significant bit (R10). -/
abbrev Byte := BitVec 8

/-- A command word is 16 bits (R8, R61). -/
abbrev Word := BitVec 16

end Sys2Proof
end

