-- ==== Sys2Proof/Syntax.lean ====
section
/-! DEFINITION. The commands (R63, one constructor per row of the opcode table) and the assembler's lines (R68). -/

namespace Sys2Proof

/-- The six commands (R63), with the operands `decode` returns in R67. Reserved words are no command (R67). -/
inductive Instr where
  /-- OPEN, op 1 (R120). Its source handle travels beside the word on the command channel (R60). -/
  | openSource
  /-- READ_BIT, op 2 (R95). -/
  | readBit
  /-- READ_BYTE, op 3 (R94). -/
  | readByte
  /-- WRITE_BIT, op 4 (R81), with `flag = cmd[8]`. -/
  | writeBit (flag : Bool)
  /-- WRITE_BYTE, op 5 (R80), with `b = cmd[15:8]`. -/
  | writeByte (b : Byte)
  /-- CLOSE, op 6 (R121). -/
  | close
deriving DecidableEq, Repr

/-- One line of a command program as it is written (R68): operands are still numbers, not yet checked. -/
inductive AsmLine where
  | openSource
  | readBit
  | readByte
  | writeBit (flag : Nat)
  | writeByte (imm8 : Nat)
  | close
  /-- `.word`, any raw word, reserved words included. -/
  | rawWord (value : Nat)
deriving DecidableEq, Repr

end Sys2Proof
end

