-- ==== Sys2Proof/Config.lean ====
section
/-! DEFINITION. The configuration of the block (R5, R6) and the free values (R21). -/

namespace Sys2Proof

/-- What is fixed when the block is built (R5, R162). `capBits` is CAP_BITS. The chunk policy SRC_CHUNK (R7) is a
parameter of the source, not of the reader: it stands with each source. DESIGN CHOICE (log 1): the configuration is
carried in the argument of the step, so that every statement is about every value of it. -/
structure Config where
  capBits : Nat
deriving DecidableEq, Repr

/-- CAP_BYTES, the largest number of bytes one refill requests (R6). -/
def Config.capBytes (c : Config) : Nat := c.capBits / 8

/-- NBITS_W, the width of the bit counter (R6). -/
def Config.nbitsWidth (c : Config) : Nat := Nat.clog 2 (c.capBits + 1)

/-- REQ_W, the width of the count fields of the source channel (R6). -/
def Config.reqWidth (c : Config) : Nat := Nat.clog 2 (c.capBytes + 1)

/-- The default capacity, 2^20 bits (R5). -/
def Config.default : Config := ⟨1048576⟩

/-- A FREE VALUE (R21, U3: "any value"; log 7): what cell `i` of the bit buffer holds while no refill has written it
since reset. Nothing constrains it. -/
opaque Config.freeCell : Nat → Bool

end Sys2Proof
end

