-- ==== Sys2Proof/WellFormed.lean ====
section
/-! DEFINITION. What a term must meet to be legal: a command, a line of a command program, a configuration. -/

namespace Sys2Proof

/-- Every command is well formed: the operand types admit exactly the values the encoding admits (R62). -/
def Instr.wellFormed : Instr → Bool
  | .openSource => true
  | .readBit => true
  | .readByte => true
  | .writeBit _ => true
  | .writeByte _ => true
  | .close => true

/-- A line's operand fits its field (R68): WRITE_BIT takes 0 or 1, WRITE_BYTE a byte, `.word` a 16-bit value. -/
def AsmLine.wellFormed : AsmLine → Bool
  | .openSource => true
  | .readBit => true
  | .readByte => true
  | .writeBit flag => flag ≤ 1
  | .writeByte imm8 => imm8 ≤ 255
  | .close => true
  | .rawWord value => value ≤ 65535

/-- A legal capacity is a multiple of 8 that is at least 8 (R5). -/
def Config.wellFormed (c : Config) : Bool := c.capBits % 8 == 0 && 8 ≤ c.capBits

end Sys2Proof
end

