-- ==== Sys2Proof/Decode.lean ====
section
/-! DEFINITION. Decoding a command word (R61, R62, R63, R67) and encoding a command (R63, R68). -/

namespace Sys2Proof

/-- `cmd[15:8]`, the operand byte (R61). -/
def imm8Field (w : Word) : Byte := w.extractLsb' 8 8

/-- `cmd[8]`, WRITE_BIT's flag (R62). -/
def flagField (w : Word) : Bool := w.getLsbD 8

/-- `cmd[7:3]`, reserved, must be 0 (R61). -/
def rsvField (w : Word) : BitVec 5 := w.extractLsb' 3 5

/-- `cmd[2:0]`, the operation code (R61). -/
def opField (w : Word) : BitVec 3 := w.extractLsb' 0 3

/-- What a command word decodes to (R67): one of the six commands, or RESERVED. -/
inductive Decoded where
  | command (i : Instr)
  | reserved
deriving DecidableEq, Repr

/-- Decoding is total (R67): the reserved field first, then the operation code. -/
def decode (w : Word) : Decoded :=
  if rsvField w ≠ 0 then .reserved
  else if opField w = 1 then .command .openSource
  else if opField w = 2 then .command .readBit
  else if opField w = 3 then .command .readByte
  else if opField w = 4 then .command (.writeBit (flagField w))
  else if opField w = 5 then .command (.writeByte (imm8Field w))
  else if opField w = 6 then .command .close
  else .reserved

/-- The command a word decodes to, none for a reserved word. -/
def Decoded.command? : Decoded → Option Instr
  | .command i => some i
  | .reserved => none

/-- The operation code of a command (R63). -/
def opcode : Instr → BitVec 3
  | .openSource => 1
  | .readBit => 2
  | .readByte => 3
  | .writeBit _ => 4
  | .writeByte _ => 5
  | .close => 6

/-- The operand byte of a command's word: the assembler emits 0 where a command has no operand (R68). -/
def operandByte : Instr → Byte
  | .openSource => 0
  | .readBit => 0
  | .readByte => 0
  | .writeBit flag => (BitVec.ofBool flag).setWidth 8
  | .writeByte b => b
  | .close => 0

/-- A word from its three fields (R61). -/
def assembleFields (imm8 : Byte) (rsv : BitVec 5) (op : BitVec 3) : Word := imm8 ++ rsv ++ op

/-- The word of a command (R61, R63, R68). -/
def encode (i : Instr) : Word := assembleFields (operandByte i) 0 (opcode i)

/-- The command of an instruction whose bits are `w`, numbered as the opcode table numbers them; the bits from `nbits`
up are 0. A command is one 16-bit word and has no other length (R61), so a longer one is refused. -/
def decodeTableWord (nbits w : Nat) : Option Instr :=
  if nbits ≤ 16 then (decode (BitVec.ofNat 16 (w % 2 ^ nbits))).command? else none

end Sys2Proof
end

