-- ==== Sys2Proof/Machine/State.lean ====
section
/-! DEFINITION. The machine's state (R20 to R24, R32), the state of the agents around it (R9, R40, R41, R60), the stop
reasons, and the state after reset (R160). -/

namespace Sys2Proof.Machine

/-- The lifecycle phase (R20). The code 3 stands for no phase. -/
inductive Phase where
  | closed
  | read
  | fault
deriving DecidableEq, Repr

/-- The 2-bit code of a phase (R20). -/
def Phase.code : Phase → BitVec 2
  | .closed => 0
  | .read => 1
  | .fault => 2

/-- The statuses of R65. `corruptStream` and `invalidCode` are listed for the consumers; this block never raises them. -/
inductive Status where
  | ok
  | endOfData
  | misusedStream
  | ioUnavailable
  | corruptStream
  | invalidCode
deriving DecidableEq, Repr

/-- The 3-bit code of a status (R65). -/
def Status.code : Status → BitVec 3
  | .ok => 0
  | .endOfData => 1
  | .misusedStream => 2
  | .ioUnavailable => 3
  | .corruptStream => 4
  | .invalidCode => 5

/-- A response: status and data (R24, R64). -/
structure Response where
  status : Status
  data : Byte
deriving DecidableEq, Repr

/-- The 11-bit response word, `status` in `[10:8]` and `data` in `[7:0]` (R64). -/
def Response.word (r : Response) : BitVec 11 := r.status.code ++ r.data

/-- How a byte source treats a request now. `stalled`: it does not answer yet (R42, R167). `failed`: it has come to a
read error, and what it answers is 0 bytes (R41, D10). The two are independent: a source that has failed may stall like
one that has ended, since R41 makes them alike (log 6). -/
structure Mood where
  stalled : Bool
  failed : Bool
deriving DecidableEq, Repr

/-- A source that answers, with no read error. -/
def Mood.ready : Mood := ⟨false, false⟩

/-- A byte source (R40): its remaining sequence, the chunk sizes it will pick for its next requests (R7; the default
policy when the list is used up; log 4), and its mood. -/
structure Source where
  remaining : List Byte
  chunks : List Nat
  mood : Mood
deriving DecidableEq, Repr

/-- The byte sources by handle (a handle is a number, the name the collaborator hands to OPEN: R60, R120), in ONE canonical form: handles strictly rising, no entry equal to the empty source,
which is what an unlisted handle names (log 3). -/
abbrev Sources := List (Nat × Source)

/-- One transfer on the command channel (R60): a word, and the source handle sent with it (with OPEN only). -/
structure Command where
  word : Word
  srcIn : Option Nat
deriving DecidableEq, Repr

/-- A command that waits on its source request (R42, R167): what is left of it to do. -/
inductive InFlight where
  | readBit
  /-- READ_BYTE with `left` bits still wanted and the accumulator `acc` (R94). -/
  | readByte (left : Nat) (acc : Byte)
deriving DecidableEq, Repr

/-- One answered source request (R60): at most `max` bytes asked for, `n` bytes returned. -/
structure Request where
  max : Nat
  n : Nat
deriving DecidableEq, Repr

/-- One thing the outside world does (R9, R163). -/
inductive Input where
  /-- The issuer sends a command (R60). -/
  | command (c : Command)
  /-- Reset (R160). `lost` is how many bytes of a request still waiting leave the source although the reader discards
  the answer (R161: "whether they left the source is the source's matter"). -/
  | reset (lost : Nat)
  /-- The issuer sends a command and reset comes while the block performs it (R161). `lost` as for `reset`. -/
  | resetDuring (c : Command) (lost : Nat)
  /-- The collaborator produces, replaces or consumes from a source (R40, R162, R163). -/
  | setSource (h : Nat) (x : Source)
  /-- A source stalls, or answers again (R42, R167). -/
  | setStalled (h : Nat) (stalled : Bool)
  /-- A source comes to a read error (R41, D10). -/
  | readError (h : Nat)
deriving DecidableEq, Repr

/-- The state. `cfg` is the configuration and no state of the block (R29): no step changes it (log 1). `responses`,
`requests` and `fetched` are the model's own record of the channels (log 12): no rule's effect depends on them. -/
structure State where
  cfg : Config
  /-- R20 -/
  phase : Phase
  /-- R21. The cells written since reset; cell `i` beyond the list holds `Config.freeCell i` (log 7). -/
  buf : List Bool
  /-- R22 -/
  nbits : Nat
  /-- R23 -/
  src : Option Nat
  /-- R24. `none`: no response pending, the spec's own value after reset (R32, R160; log 8). -/
  rsp : Option Response
  /-- The command in progress, when it waits on a source request (R42, R167, R171). -/
  inFlight : Option InFlight
  /-- The side operand of the command last taken from the command channel (R60, R120). -/
  srcIn : Option Nat
  /-- The byte sources (R40). -/
  sources : Sources
  /-- The command channel: sent, not yet accepted, oldest first (R60, R166). -/
  commands : List Command
  /-- What the outside world does next, oldest first (R9; log 2). -/
  inputs : List Input
  /-- The responses delivered, oldest first (R60, R64). -/
  responses : List Response
  /-- The source requests answered, oldest first (R60). -/
  requests : List Request
  /-- F of R28: bytes that source requests returned since OPEN. -/
  fetched : Nat
deriving DecidableEq, Repr

/-- Why the machine stops with a fault: never. The block has no trap and answers every command in every phase (R145,
R149, R152), so there is no constructor. -/
inductive Fault where
deriving DecidableEq, Repr

/-- Why the model gives a step no meaning. -/
inductive Refusal where
  /-- An instruction with no meaning yet, by its mnemonic. Raised by no arm of `exec`. Safe: the model stops. -/
  | notModelled (mnemonic : String)
  /-- The host broke its duty to keep the bound source stable (R163, R168; U8: "such runs have no meaning in the
  spec"). Raised by the input `setSource` where it changes the bytes of the bound
  source, by no command. Safe: the model stops. -/
  | sourceDisturbed
deriving DecidableEq, Repr

/-- The machine right after reset (R160): CLOSED, no bits, unbound, no response pending, every buffer cell free, the
default capacity (R5). Nothing is listed for the other agents. -/
def State.reset : State where
  cfg := Config.default
  phase := .closed
  buf := []
  nbits := 0
  src := none
  rsp := none
  inFlight := none
  srcIn := none
  sources := []
  commands := []
  inputs := []
  responses := []
  requests := []
  fetched := 0

end Sys2Proof.Machine
end

