-- ==== Sys2Proof/Machine/Flags.lean ====
section
/-! DEFINITION. The response register and the response channel: the block's only flags are `rsp.status` and the phase
(R24, R29, R64, R66). -/

namespace Sys2Proof.Machine

/-- `respond(status, data)` (R11, R64): writes both fields of `rsp`, delivers the response and ends the command. -/
def State.respond (st : Status) (d : Byte) (s : State) : State :=
  { s with rsp := some ⟨st, d⟩, responses := s.responses ++ [⟨st, d⟩], inFlight := none }

/-- `raise S` (R11): the response of an error carries the data 0x00 (R66). -/
def State.raise (st : Status) (s : State) : State := s.respond st 0

/-- The phase after a misuse (R146): READ becomes FAULT, CLOSED and FAULT stay. -/
def Phase.afterMisuse : Phase → Phase
  | .closed => .closed
  | .read => .fault
  | .fault => .fault

end Sys2Proof.Machine
end

