-- ==== Sys2Proof/Machine/Operands.lean ====
section
/-! DEFINITION. Operands and bit order: bytes as bits (R11, R43, R44), the bits of a result (R46, R66, R94), the table of
byte sources, and the side operand of OPEN (R60, R120). -/

namespace Sys2Proof.Machine

/-- `bits_msb(b)`: the 8 bits of a byte, most significant first (R11, R43). -/
def bitsMsb (b : Byte) : List Bool :=
  [b.getLsbD 7, b.getLsbD 6, b.getLsbD 5, b.getLsbD 4, b.getLsbD 3, b.getLsbD 2, b.getLsbD 1, b.getLsbD 0]

/-- `BitSeq`: the bits of a byte sequence in delivery order (R44, R45). -/
def bitSeq : List Byte → List Bool
  | [] => []
  | b :: bs => bitsMsb b ++ bitSeq bs

/-- `zext_8` of one bit (R11, R66). -/
def zext8 (b : Bool) : Byte := (BitVec.ofBool b).setWidth 8

/-- One step of READ_BYTE's accumulator, `v <- (v << 1) | b` (R94). -/
def shiftIn (v : Byte) (b : Bool) : Byte := (v <<< 1) ||| zext8 b

/-- What an unlisted handle names: a ready source with no byte left (log 3). -/
def Source.empty : Source := ⟨[], [], .ready⟩

/-- The source a handle names. -/
def Sources.read : Sources → Nat → Source
  | [], _ => Source.empty
  | (k, x) :: rest, h => if k = h then x else Sources.read rest h

/-- Puts a source under a handle in front of a table whose handles are all larger; the empty source is not listed. -/
def Sources.put (h : Nat) (x : Source) (rest : Sources) : Sources :=
  if x = Source.empty then rest else (h, x) :: rest

/-- Changes the source a handle names and keeps the canonical form. -/
def Sources.write : Sources → Nat → Source → Sources
  | [], h, x => Sources.put h x []
  | (k, y) :: rest, h, x =>
    if h < k then Sources.put h x ((k, y) :: rest)
    else if h = k then Sources.put h x rest
    else (k, y) :: Sources.write rest h x

/-- Every handle of the table is above `h`. -/
def Sources.above (h : Nat) : Sources → Bool
  | [] => true
  | (k, _) :: rest => decide (h < k) && Sources.above h rest

/-- The canonical form: handles strictly rising, no entry equal to what an unlisted handle names. -/
def Sources.wf : Sources → Bool
  | [] => true
  | (k, x) :: rest => decide (x ≠ Source.empty) && Sources.above k rest && Sources.wf rest

/-- OPEN's operand `src_in`: the handle that came with the command, or none (R60, R120). -/
def sourceOperand (s : State) : Option Nat := s.srcIn

end Sys2Proof.Machine
end

