-- ==== Sys2Proof/Machine/Ops.lean ====
section
/-! DEFINITION. The shared operations: Misuse (R146), SrcRead (R41), Refill (R91, R92), PopBit (R90), the bit loop of
READ_BYTE (R94), binding and unbinding a source (R120, R121). -/

namespace Sys2Proof.Machine

/-! ## Misuse: the block's only way of taking an error that changes the phase (R145, R146) -/

/-- `Misuse()` (R146): fail fast. -/
def State.misuse (s : State) : State := { s with phase := s.phase.afterMisuse }.raise .misusedStream

/-! ## The byte source (R40, R41) -/

/-- The bytes a source can still supply: none after a read error, which reads as the end (R41, D10). -/
def Source.supply (x : Source) : List Byte :=
  if x.mood.failed then [] else x.remaining

/-- How many bytes the source returns to a request for at most `max` (R7, R41): its next chunk pick held within
`1 .. min(remaining, max)`, and all of `min(remaining, max)` where it has no pick left (D8). -/
def Source.pick (x : Source) (max : Nat) : Nat :=
  match x.chunks with
  | [] => min x.supply.length max
  | k :: _ => min (min x.supply.length max) (Nat.max 1 k)

/-- The answer to a request for at most `max` bytes: the first bytes of what it can supply (R41). -/
def Source.answer (x : Source) (max : Nat) : List Byte := x.supply.take (x.pick max)

/-- The source after that answer: the bytes are gone, a chunk pick is used up, and an answer of 0 bytes changes nothing
(R41, R49). -/
def Source.afterAnswer (x : Source) (max : Nat) : Source :=
  if x.pick max = 0 then x
  else { x with remaining := x.remaining.drop (x.pick max), chunks := x.chunks.tail }

/-- The source the block is bound to; the empty source when it is unbound. -/
def State.boundSource (s : State) : Source :=
  match s.src with
  | none => Source.empty
  | some h => s.sources.read h

/-- The bound source answers a request now (R42, R167). An unbound block has no source that could answer (log 16). -/
def State.canAnswer (s : State) : Bool := s.src.isSome && !s.boundSource.mood.stalled

/-- The state after the bound source has answered a request for at most `max` bytes: its bytes left it (R49), and the
channel's record is kept (R28, R60). -/
def State.afterRequest (max : Nat) (s : State) : State :=
  match s.src with
  | none => s
  | some h =>
    { s with
      sources := s.sources.write h ((s.sources.read h).afterAnswer max)
      requests := s.requests ++ [⟨max, ((s.sources.read h).answer max).length⟩]
      fetched := s.fetched + ((s.sources.read h).answer max).length }

/-- `SrcRead(max)` (R11, R41): one request, blocking until the source answers (R42); `none` while it does not answer. -/
def srcRead (max : Nat) (s : State) : Option (List Byte × State) :=
  if s.canAnswer then some (s.boundSource.answer max, s.afterRequest max) else none

/-! ## The bit buffer (R21, R22, R91, R92) -/

/-- The cell `buf[i]` (R21). -/
def State.cell (s : State) (i : Nat) : Bool := s.buf.getD i (Config.freeCell i)

/-- The storing half of Refill (R91, R92): `buf[i] <- s[8n-1-i]`, the cells from `8n` up kept, `nbits <- 8n`. -/
def State.loadBuffer (bytes : List Byte) (s : State) : State :=
  { s with buf := (bitSeq bytes).reverse ++ s.buf.drop (8 * bytes.length), nbits := 8 * bytes.length }

/-- What Refill comes to: the buffer filled, FAIL, or still waiting for the source. -/
inductive Refill where
  | filled (s : State)
  | fail (s : State)
  | waiting
deriving DecidableEq, Repr

/-- `Refill()` (R91). -/
def refill (s : State) : Refill :=
  match srcRead s.cfg.capBytes s with
  | none => .waiting
  | some ([], t) => .fail t
  | some (b :: bs, t) => .filled (t.loadBuffer (b :: bs))

/-- The bit at the removal point, `buf[nbits-1]` (R22, R90). -/
def State.topBit (s : State) : Bool := s.cell (s.nbits - 1)

/-- `nbits <- nbits - 1` (R90). -/
def State.dropTop (s : State) : State := { s with nbits := s.nbits - 1 }

/-- What PopBit comes to: a bit, FAIL, or still waiting for the source. -/
inductive Pop where
  | bit (b : Bool) (s : State)
  | fail (s : State)
  | waiting
deriving DecidableEq, Repr

/-- `PopBit()` (R90): refills first when the buffer is empty, and only then (R93). -/
def popBit (s : State) : Pop :=
  if s.nbits = 0 then
    match refill s with
    | .filled t => .bit t.topBit t.dropTop
    | .fail t => .fail t
    | .waiting => .waiting
  else .bit s.topBit s.dropTop

/-! ## Reading (R94, R95) -/

/-- What the bit loop of READ_BYTE comes to: the byte, FAIL with the popped bits consumed (R96), or waiting. -/
inductive Got where
  | done (v : Byte) (s : State)
  | ended (s : State)
  | waiting (left : Nat) (acc : Byte) (s : State)
deriving DecidableEq, Repr

/-- The loop of READ_BYTE (R94) with `left` bits still wanted and the accumulator `acc`. -/
def takeBits : Nat → Byte → State → Got
  | 0, acc, s => .done acc s
  | left + 1, acc, s =>
    match popBit s with
    | .bit b t => takeBits left (shiftIn acc b) t
    | .fail t => .ended t
    | .waiting => .waiting (left + 1) acc s

/-- The command in progress waits on its source request (R42, R167): nothing is answered. -/
def State.park (op : InFlight) (s : State) : State := { s with inFlight := some op }

/-- READ_BYTE from the point where `left` bits are wanted (R94): OK with the byte, EndOfData, or waiting. -/
def runReadByte (left : Nat) (acc : Byte) (s : State) : State :=
  match takeBits left acc s with
  | .done v t => t.respond .ok v
  | .ended t => t.raise .endOfData
  | .waiting left' acc' t => t.park (.readByte left' acc')

/-- READ_BIT in READ (R95): OK with the bit, EndOfData, or waiting. -/
def runReadBit (s : State) : State :=
  match popBit s with
  | .bit b t => t.respond .ok (zext8 b)
  | .fail t => t.raise .endOfData
  | .waiting => s.park .readBit

/-- Goes on with a command that was waiting (R42). -/
def resume (op : InFlight) (s : State) : State :=
  match op with
  | .readBit => runReadBit s
  | .readByte left acc => runReadByte left acc s

/-! ## The lifecycle (R120, R121) -/

/-- OPEN's binding (R120): the stream starts at the source's next byte (R40), with an empty buffer (R93). -/
def State.bindTo (h : Nat) (s : State) : State :=
  { s with src := some h, nbits := 0, phase := .read, fetched := 0 }

/-- CLOSE's release (R121): the buffered bits are discarded, the handle is closed, FAULT is left too (R148). -/
def State.release (s : State) : State :=
  { s with src := none, nbits := 0, phase := .closed, fetched := 0 }

end Sys2Proof.Machine
end

