-- ==== Sys2Proof/Machine/Lifecycle.lean ====
section
/-! DEFINITION. The lifecycle commands (42_lifecycle.md), and what a reserved word does (R144). -/

namespace Sys2Proof.Machine

/-- OPEN (R120): the phase is checked before the operand (R150). -/
def execOpenSource (s : State) : Host.Outcome State Fault Refusal :=
  if s.phase = .closed then
    match sourceOperand s with
    | none => .next (s.raise .ioUnavailable)
    | some h => .next ((s.bindTo h).respond .ok 0)
  else .next s.misuse

/-- CLOSE (R121): accepted in every phase, and it cannot fail. -/
def execClose (s : State) : Host.Outcome State Fault Refusal := .next (s.release.respond .ok 0)

/-- A reserved word is a misuse in every phase (R144). It is no command, so the step calls this, not `exec`. -/
def execReserved (s : State) : Host.Outcome State Fault Refusal := .next s.misuse

end Sys2Proof.Machine
end

