-- ==== Sys2Proof/Machine/Read.lean ====
section
/-! DEFINITION. The read commands (41_read_commands.md). -/

namespace Sys2Proof.Machine

/-- READ_BIT (R95): in READ one bit; in CLOSED and FAULT a misuse. -/
def execReadBit (s : State) : Host.Outcome State Fault Refusal :=
  if s.phase = .read then .next (runReadBit s) else .next s.misuse

/-- READ_BYTE (R94): in READ eight bits, the accumulator starting at 0; in CLOSED and FAULT a misuse. -/
def execReadByte (s : State) : Host.Outcome State Fault Refusal :=
  if s.phase = .read then .next (runReadByte 8 0 s) else .next s.misuse

end Sys2Proof.Machine
end

