-- ==== Sys2Proof/Machine/Write.lean ====
section
/-! DEFINITION. The write commands (40_write_commands.md): a Read-mode stream rejects them, whatever the operand. -/

namespace Sys2Proof.Machine

/-- WRITE_BIT (R81): a misuse in every phase; the flag is ignored. -/
def execWriteBit (_flag : Bool) (s : State) : Host.Outcome State Fault Refusal := .next s.misuse

/-- WRITE_BYTE (R80): a misuse in every phase; the byte is ignored. -/
def execWriteByte (_b : Byte) (s : State) : Host.Outcome State Fault Refusal := .next s.misuse

end Sys2Proof.Machine
end

