-- ==== Sys2Proof/Machine/Dispatch.lean ====
section
/-! DEFINITION. One arm per command of the opcode table. -/

namespace Sys2Proof.Machine

def exec (i : Instr) (s : State) : Host.Outcome State Fault Refusal :=
  match i with
  | .openSource => Sys2Proof.Machine.execOpenSource s
  | .readBit => Sys2Proof.Machine.execReadBit s
  | .readByte => Sys2Proof.Machine.execReadByte s
  | .writeBit flag => Sys2Proof.Machine.execWriteBit flag s
  | .writeByte b => Sys2Proof.Machine.execWriteByte b s
  | .close => Sys2Proof.Machine.execClose s

end Sys2Proof.Machine
end

