-- ==== Sys2Proof/Machine/Environment.lean ====
section
/-! DEFINITION. What the outside world does to the machine: reset (R160, R161), commands sent (R60, R166), byte sources
created and changed (R40, R162, R163), sources that stall or fail (R41, R42, R167, R168). -/

namespace Sys2Proof.Machine

/-- The bytes of a late answer leave their source although the reader discards them (R161): at most as many as the
waiting request could have returned. -/
def State.discardLateAnswer (lost : Nat) (s : State) : State :=
  match s.inFlight, s.src with
  | some _, some h =>
    { s with
      sources := s.sources.write h
        { s.sources.read h with
          remaining := (s.sources.read h).remaining.drop
            (min lost (min (s.sources.read h).supply.length s.cfg.capBytes)) } }
  | _, _ => s

/-- Reset (R160, R161): the block's state as after reset, the command in progress abandoned without a response. The
configuration, the sources, what waits on the channels and the record of the past are not the block's state (log 10). -/
def State.resetBlock (lost : Nat) (s : State) : State :=
  { State.reset with
    cfg := s.cfg
    sources := (s.discardLateAnswer lost).sources
    commands := s.commands
    inputs := s.inputs
    responses := s.responses
    requests := s.requests }

/-- How many bits a command needs (R48). -/
def bitsNeeded (d : Decoded) : Nat :=
  match d with
  | .command .readBit => 1
  | .command .readByte => 8
  | _ => 0

/-- The block in the middle of `c`, as far as reset can tell (R161): a read that needs a byte is at its source request,
every other command leaves no trace once its state changes are overwritten. A block that already waits performs that
command, and `c` is held on the channel (R166). -/
def State.interruptedIn (c : Command) (s : State) : State :=
  match s.inFlight with
  | some _ => { s with commands := s.commands ++ [c] }
  | none => if s.phase = .read ∧ s.nbits < bitsNeeded (decode c.word) then s.park .readBit else s

/-- The source a handle names once the collaborator has set it to `x`. A read error of the bound source lasts until the
block is unbound: its next requests are answered with 0 bytes again (R97, log 6). -/
def State.sourceSet (h : Nat) (x : Source) (s : State) : Source :=
  if s.src = some h then { x with mood := { x.mood with failed := x.mood.failed || (s.sources.read h).mood.failed } }
  else x

/-- The collaborator sets a source. To change the bytes of the source the block is bound to breaks the duty of R163 and
R168, and such a run has no meaning (U8, log 11). -/
def setSource (h : Nat) (x : Source) (s : State) : Host.Outcome State Fault Refusal :=
  if s.src = some h ∧ x.remaining ≠ (s.sources.read h).remaining then .refused .sourceDisturbed
  else .next { s with sources := s.sources.write h (s.sourceSet h x) }

/-- A source starts to stall or answers again, bound or not, failed or not (R42, R167). -/
def State.setStalled (h : Nat) (stalled : Bool) (s : State) : State :=
  { s with
    sources := s.sources.write h { s.sources.read h with mood := { (s.sources.read h).mood with stalled := stalled } } }

/-- A source comes to a read error (R41, D10): its bytes stay, and it answers 0 bytes from now on. -/
def State.readError (h : Nat) (s : State) : State :=
  { s with
    sources := s.sources.write h { s.sources.read h with mood := { (s.sources.read h).mood with failed := true } } }

/-- A command is sent: it waits on the command channel until the block is free (R166). -/
def State.send (c : Command) (s : State) : State := { s with commands := s.commands ++ [c] }

/-- One thing the outside world does. -/
def applyInput (e : Input) (s : State) : Host.Outcome State Fault Refusal :=
  match e with
  | .command c => .next (s.send c)
  | .reset lost => .next (s.resetBlock lost)
  | .resetDuring c lost => .next ((s.interruptedIn c).resetBlock lost)
  | .setSource h x => setSource h x s
  | .setStalled h stalled => .next (s.setStalled h stalled)
  | .readError h => .next (s.readError h)

/-- The outside world's turn: its next doing, or nothing happens and every state element keeps its value (R167, R171). -/
def outsideMove (s : State) : Host.Outcome State Fault Refusal :=
  match s.inputs with
  | [] => .next s
  | e :: rest => applyInput e { s with inputs := rest }

end Sys2Proof.Machine
end

