-- ==== Sys2Proof/Machine/Fetch.lean ====
section
/-! DEFINITION. Taking the next command from the command channel, and whose turn it is (R9, R51, R166). -/

namespace Sys2Proof.Machine

/-- Runs one command word (R67): the command it decodes to, or the effect of a reserved word (R144, R150). -/
def runWord (w : Word) (s : State) : Host.Outcome State Fault Refusal :=
  match decode w with
  | .command i => exec i s
  | .reserved => execReserved s

/-- The oldest command leaves the channel, its side operand with it (R60). -/
def State.accept (c : Command) (rest : List Command) (s : State) : State :=
  { s with commands := rest, srcIn := c.srcIn }

/-- Whose turn it is (log 2). A command in progress goes on as soon as its source answers, and until then only the
outside world moves (R167). A free block takes the oldest command on the channel (R166). A free block with no command is
idle (R171), and the outside world moves. -/
def advance (s : State) : Host.Outcome State Fault Refusal :=
  match s.inFlight with
  | some op => if s.canAnswer then .next (resume op s) else outsideMove s
  | none =>
    match s.commands with
    | c :: rest => runWord c.word (s.accept c rest)
    | [] => outsideMove s

/-- The state with one command word put at the front of the command channel, and a free block that takes it next. The
handle on the channel stays what it is. -/
def State.withNextCommand (w : Word) (s : State) : State :=
  { s with commands := ⟨w, s.srcIn⟩ :: s.commands, inFlight := none }

end Sys2Proof.Machine
end

