-- ==== Sys2Proof/Machine/Step.lean ====
section
/-! DEFINITION. One step of the machine, and where the step finds its next instruction. -/

namespace Sys2Proof.Machine

/-- One step: the command in progress, the next command, or the outside world. -/
def step (s : State) : Host.Outcome State Fault Refusal := advance s

/-- `s` with the instruction whose bits are `w` (those from `nbits` up are 0) at the front of the command channel. The
block runs no stored program (R28): a program is the commands the issuer sends (log 15). -/
def State.withFetchWord (s : State) (nbits w : Nat) : State :=
  s.withNextCommand (BitVec.ofNat 16 (w % 2 ^ nbits))

end Sys2Proof.Machine
end

