-- ==== Sys2Proof/Machine/Assembler.lean ====
section
/-! DEFINITION. The assembler syntax (R68): one command a line, comments after `;`, decimal or `0x` numbers, `.word`, and
an expected response after `->`. There are no pseudo-instructions (R69). Lines are lists of characters. -/

namespace Sys2Proof.Machine

/-- Why a line is refused. -/
inductive AsmError where
  /-- The first word of the line is no mnemonic of R68. -/
  | unknownMnemonic
  /-- The number of operands is not the mnemonic's. -/
  | wrongOperands
  /-- An operand is no decimal or `0x` hexadecimal number. -/
  | notANumber
  /-- An operand does not fit its field. -/
  | outOfRange
  /-- What stands after `->` is no `<status>, <data>`. -/
  | badExpectation
deriving DecidableEq, Repr

/-- Text after `;` is a comment (R68). -/
def stripComment : List Char → List Char
  | [] => []
  | c :: cs => if c = ';' then [] else c :: stripComment cs

/-- What separates words: spaces and tabs (log 20). -/
def isBlank (c : Char) : Bool := c == ' ' || c == '\t'

/-- The words of a line; `word` is the word being read, last character first. -/
def splitWords (word : List Char) : List Char → List (List Char)
  | [] => if word.isEmpty then [] else [word.reverse]
  | c :: cs =>
    if isBlank c then (if word.isEmpty then splitWords [] cs else word.reverse :: splitWords [] cs)
    else splitWords (c :: word) cs

/-- The value of a digit below `base`. -/
def digitValue (base : Nat) (c : Char) : Option Nat :=
  let v :=
    if '0'.toNat ≤ c.toNat ∧ c.toNat ≤ '9'.toNat then c.toNat - '0'.toNat
    else if 'a'.toNat ≤ c.toNat ∧ c.toNat ≤ 'f'.toNat then c.toNat - 'a'.toNat + 10
    else if 'A'.toNat ≤ c.toNat ∧ c.toNat ≤ 'F'.toNat then c.toNat - 'A'.toNat + 10
    else base
  if v < base then some v else none

/-- A digit string's value, `acc` being the digits read so far. -/
def digitsValue (base acc : Nat) : List Char → Option Nat
  | [] => some acc
  | c :: cs =>
    match digitValue base c with
    | none => none
    | some v => digitsValue base (acc * base + v) cs

/-- A number, decimal or `0x` hexadecimal (R68). -/
def parseNumber : List Char → Option Nat
  | [] => none
  | ['0', 'x'] => none
  | '0' :: 'x' :: cs => digitsValue 16 0 cs
  | c :: cs => digitsValue 10 0 (c :: cs)

/-- A mnemonic with no operand. -/
def withoutOperand (line : AsmLine) (operands : List (List Char)) : Except AsmError AsmLine :=
  if operands.isEmpty then .ok line else .error .wrongOperands

/-- A mnemonic with one numeric operand. -/
def withOperand (line : Nat → AsmLine) (operands : List (List Char)) : Except AsmError AsmLine :=
  match operands with
  | [word] =>
    match parseNumber word with
    | some n => .ok (line n)
    | none => .error .notANumber
  | _ => .error .wrongOperands

/-- One line of a command program, from its words (R68). -/
def parseWords (mnemonic : List Char) (operands : List (List Char)) : Except AsmError AsmLine :=
  if mnemonic = ['O', 'P', 'E', 'N'] then withoutOperand .openSource operands
  else if mnemonic = ['R', 'E', 'A', 'D', '_', 'B', 'I', 'T'] then withoutOperand .readBit operands
  else if mnemonic = ['R', 'E', 'A', 'D', '_', 'B', 'Y', 'T', 'E'] then withoutOperand .readByte operands
  else if mnemonic = ['W', 'R', 'I', 'T', 'E', '_', 'B', 'I', 'T'] then withOperand .writeBit operands
  else if mnemonic = ['W', 'R', 'I', 'T', 'E', '_', 'B', 'Y', 'T', 'E'] then withOperand .writeByte operands
  else if mnemonic = ['C', 'L', 'O', 'S', 'E'] then withoutOperand .close operands
  else if mnemonic = ['.', 'w', 'o', 'r', 'd'] then withOperand .rawWord operands
  else .error .unknownMnemonic

/-- A line's command and what stands after its `->`; `before` is the command read so far, last character first. -/
def splitArrow (before : List Char) : List Char → List Char × Option (List Char)
  | '-' :: '>' :: cs => (before.reverse, some cs)
  | [] => (before.reverse, none)
  | c :: cs => splitArrow (c :: before) cs

/-- Sets a comma apart as a word of its own. -/
def spaceCommas : List Char → List Char
  | [] => []
  | c :: cs => if c = ',' then ' ' :: ',' :: ' ' :: spaceCommas cs else c :: spaceCommas cs

/-- The status a name stands for (R65). -/
def parseStatus (name : List Char) : Option Status :=
  if name = ['O', 'K'] then some .ok
  else if name = ['E', 'n', 'd', 'O', 'f', 'D', 'a', 't', 'a'] then some .endOfData
  else if name = ['M', 'i', 's', 'u', 's', 'e', 'd', 'S', 't', 'r', 'e', 'a', 'm'] then some .misusedStream
  else if name = ['I', 'O', 'U', 'n', 'a', 'v', 'a', 'i', 'l', 'a', 'b', 'l', 'e'] then some .ioUnavailable
  else if name = ['C', 'o', 'r', 'r', 'u', 'p', 't', 'S', 't', 'r', 'e', 'a', 'm'] then some .corruptStream
  else if name = ['I', 'n', 'v', 'a', 'l', 'i', 'd', 'C', 'o', 'd', 'e'] then some .invalidCode
  else none

/-- An expected response, `<status>, <data>` (R68). -/
def parseExpected (text : List Char) : Except AsmError Response :=
  match splitWords [] (spaceCommas text) with
  | [name, [','], data] =>
    match parseStatus name, parseNumber data with
    | some status, some n => if n ≤ 255 then .ok ⟨status, BitVec.ofNat 8 n⟩ else .error .outOfRange
    | none, _ => .error .badExpectation
    | _, none => .error .notANumber
  | _ => .error .badExpectation

/-- The expected response of a line, if it has one. -/
def parseExpectedOf (text : Option (List Char)) : Except AsmError (Option Response) :=
  match text with
  | none => .ok none
  | some cs =>
    match parseExpected cs with
    | .ok r => .ok (some r)
    | .error e => .error e

/-- One line of text, with its expected response: none where it is blank or only a comment. -/
def parseLine (text : List Char) : Except AsmError (Option (AsmLine × Option Response)) :=
  let (command, after) := splitArrow [] (stripComment text)
  match splitWords [] command, after with
  | [], none => .ok none
  | [], some _ => .error .unknownMnemonic
  | mnemonic :: operands, after =>
    match parseWords mnemonic operands, parseExpectedOf after with
    | .ok line, .ok expected => .ok (some (line, expected))
    | .error e, _ => .error e
    | _, .error e => .error e

/-- The word of a line (R68), refused where an operand does not fit. -/
def AsmLine.assemble (line : AsmLine) : Except AsmError Word :=
  if line.wellFormed then
    .ok (match line with
      | .openSource => encode .openSource
      | .readBit => encode .readBit
      | .readByte => encode .readByte
      | .writeBit flag => encode (.writeBit (flag == 1))
      | .writeByte imm8 => encode (.writeByte (BitVec.ofNat 8 imm8))
      | .close => encode .close
      | .rawWord value => BitVec.ofNat 16 value)
  else .error .outOfRange

/-- A command program: the words of its lines, in order, each with the response expected of it; the first line that is
refused refuses it. -/
def assembleProgram : List (List Char) → Except AsmError (List (Word × Option Response))
  | [] => .ok []
  | text :: rest =>
    match parseLine text with
    | .error e => .error e
    | .ok none => assembleProgram rest
    | .ok (some (line, expected)) =>
      match AsmLine.assemble line, assembleProgram rest with
      | .ok w, .ok ws => .ok ((w, expected) :: ws)
      | .error e, _ => .error e
      | _, .error e => .error e

end Sys2Proof.Machine
end

