-- ==== Sys2Proof/Machine/View.lean ====
section
/-! DEFINITION. What the state means in the spec's own terms: the pending sequence (R25), the stream (R45), the stream
position (R28), a sequence of command words (R51). The block computes none of these. -/

namespace Sys2Proof.Machine

/-- `[buf[n-1], ..., buf[0]]` (R25). -/
def State.cellsBelow (s : State) : Nat → List Bool
  | 0 => []
  | n + 1 => s.cell n :: s.cellsBelow n

/-- The pending sequence (R25): the bits the buffer will deliver, in delivery order. -/
def State.pending (s : State) : List Bool := s.cellsBelow s.nbits

/-- The undelivered rest of the bound source's bits (R45): what is buffered, then what is still in the source. -/
def State.stream (s : State) : List Bool := s.pending ++ bitSeq s.boundSource.remaining

/-- The bits the block can still deliver: the stream, cut short where the source has failed (R41, D10). -/
def State.deliverable (s : State) : List Bool := s.pending ++ bitSeq s.boundSource.supply

/-- The stream position (R28), `8 * F - nbits`. -/
def State.position (s : State) : Nat := 8 * s.fetched - s.nbits

/-- The number whose 8-bit notation has these bits, the first one in bit 7 (R46). -/
def byteValue (bits : List Bool) : Nat :=
  ∑ k ∈ Finset.range 8, (if bits.getD k false then 2 ^ (7 - k) else 0)

/-- Runs command words one after the other (R51), each with the side operand that is on the channel. -/
def issueAll : List Word → State → Host.Outcome State Fault Refusal
  | [], s => .next s
  | w :: ws, s =>
    match runWord w s with
    | .next t => issueAll ws t
    | .fault r => .fault r
    | .refused r => .refused r

/-- The responses delivered since a state in which `n` had been delivered. -/
def State.responsesSince (s : State) (n : Nat) : List Response := s.responses.drop n

/-- The outside world's turn (log 2): the block waits on its source, or is idle. -/
def State.outsideTurn (s : State) : Bool :=
  match s.inFlight with
  | some _ => !s.canAnswer
  | none => s.commands.isEmpty

/-- The bound source answers again; where `error`, with a read error (R41, R42). -/
def State.wake (error : Bool) (s : State) : State :=
  match s.src with
  | none => s
  | some h => if error then (s.readError h).setStalled h false else s.setStalled h false

end Sys2Proof.Machine
end

