-- ==== Sys2Proof/Safety.lean ====
section
/-! DEFINITION. The invariants of the machine (R26, R98), legal responses (R65, R66, R140), safe runs, and the producer
convention a reader's input normally follows (R53). -/

namespace Sys2Proof.Machine

/-- The invariants that hold even inside a command (R26, R98): a legal capacity (R5), the bit count in range, every bit
still to be delivered in a written cell, no bit in CLOSED, a source bound exactly in READ and FAULT, the table of sources
canonical, and no more bits left than were fetched. -/
structure State.Sound (s : State) : Prop where
  legalCapacity : s.cfg.wellFormed = true
  countInRange : s.nbits ≤ s.cfg.capBits
  cellsWritten : s.nbits ≤ s.buf.length
  cellsFit : s.buf.length ≤ s.cfg.capBits
  closedIsEmpty : s.phase = .closed → s.nbits = 0
  boundExactly : s.src.isSome = true ↔ s.phase ≠ .closed
  sourcesCanonical : s.sources.wf = true
  fetchedCovers : s.nbits ≤ 8 * s.fetched

/-- What a waiting command looks like: READ_BYTE wants 1 to 8 bits more, and its accumulator holds the bits it has. -/
def InFlight.plausible : InFlight → Bool
  | .readBit => true
  | .readByte left acc => decide (1 ≤ left ∧ left ≤ 8 ∧ acc.toNat < 2 ^ (8 - left))

/-- A command waits on its source only in READ and with an empty buffer (R91, R93). -/
def State.waitingIsPlausible (s : State) : Bool :=
  match s.inFlight with
  | none => true
  | some op => decide (s.phase = .read ∧ s.nbits = 0) && op.plausible

/-- The machine's invariant. -/
structure State.Inv (s : State) : Prop where
  sound : s.Sound
  waiting : s.waitingIsPlausible = true

/-- A response this block can give (R65, R66, R140): never CorruptStream or InvalidCode, and data only with OK. -/
def Response.legal (r : Response) : Bool :=
  decide (r.status ≠ .corruptStream ∧ r.status ≠ .invalidCode ∧ (r.status ≠ .ok → r.data = 0))

/-- The response register holds nothing, or the last response delivered (R24); every response is legal. -/
def State.responsesLegal (s : State) : Bool :=
  s.responses.all Response.legal && (s.rsp.isNone || decide (s.rsp = s.responses.getLast?))

/-- `s` is bound to source `h`, and `k` steps lead from it to `t` without the binding ever ending. -/
def boundRun (h : Nat) : Nat → State → State → Prop
  | 0, s, t => s.src = some h ∧ t = s
  | k + 1, s, t => s.src = some h ∧ ∃ u, step s = .next u ∧ boundRun h k u t

/-- The input is reset, between commands or during one (R160, R161). -/
def Input.isReset (e : Input) : Bool :=
  match e with
  | .reset _ => true
  | .resetDuring _ _ => true
  | .command _ => false
  | .setSource _ _ => false
  | .setStalled _ _ => false
  | .readError _ => false

/-- The input breaks the host's duty toward the bound source (R163, R168). -/
def disturbs (e : Input) (s : State) : Bool :=
  match e with
  | .command _ => false
  | .reset _ => false
  | .resetDuring _ _ => false
  | .setSource h x => decide (s.src = some h ∧ x.remaining ≠ (s.sources.read h).remaining)
  | .setStalled _ _ => false
  | .readError _ => false

/-- A step is safe when the host's next doing, if it is the outside world's turn, disturbs no bound source. -/
def State.hostBehaves (s : State) : Bool :=
  match s.inputs with
  | [] => true
  | e :: _ => !s.outsideTurn || !disturbs e s

/-- Two states that differ in capacity, chunking and read-ahead only, as far as the issuer can tell (R100): both in the
same phase, bound, nothing in progress, the source answering, the same bits to come. -/
structure SameToIssuer (s t : State) : Prop where
  left : s.Inv
  right : t.Inv
  phase : s.phase = t.phase
  bound : s.phase ≠ .closed
  freeLeft : s.inFlight = none
  freeRight : t.inFlight = none
  answersLeft : s.canAnswer = true
  answersRight : t.canAnswer = true
  bits : s.deliverable = t.deliverable

/-! ## The outcome of a command word (R149, R150) -/

/-- The word decodes to nothing, or to a command the phase does not allow (R142). -/
def misused (d : Decoded) (p : Phase) : Bool :=
  match d with
  | .reserved => true
  | .command .openSource => decide (p ≠ .closed)
  | .command .readBit => decide (p ≠ .read)
  | .command .readByte => decide (p ≠ .read)
  | .command (.writeBit _) => true
  | .command (.writeByte _) => true
  | .command .close => false

/-- The status of R150's order: misuse, then no source for OPEN, then too few bits for a read. -/
def expectedStatus (d : Decoded) (s : State) : Status :=
  if misused d s.phase then .misusedStream
  else if d = .command .openSource ∧ s.srcIn = none then .ioUnavailable
  else if s.deliverable.length < bitsNeeded d then .endOfData
  else .ok

/-- The phase afterwards, as R149's table has it. -/
def expectedPhase (d : Decoded) (s : State) : Phase :=
  if misused d s.phase then (if s.phase = .read then .fault else s.phase)
  else if d = .command .openSource then (if s.srcIn = none then .closed else .read)
  else if d = .command .close then .closed
  else s.phase

/-- The bits that successful READ_BITs and READ_BYTEs deliver, from the words sent and the responses to them (R45). -/
def deliveredBits : List Word → List Response → List Bool
  | w :: ws, r :: rs =>
    (match decode w, r.status with
      | .command .readBit, .ok => [r.data.getLsbD 0]
      | .command .readByte, .ok => bitsMsb r.data
      | _, _ => []) ++ deliveredBits ws rs
  | _, _ => []

/-! ## The producer convention (R53)

The writer is another block (R4). Its packing is stated because it fixes the layout the reader consumes. -/

/-- One byte from up to 8 bits, most significant first, the missing ones zero. -/
def packByte (bits : List Bool) : Byte := BitVec.ofNat 8 (byteValue bits)

/-- The bytes of a bit sequence, most significant bit first, the final partial byte padded with zeros (R53). The number
of bytes is given, so that the recursion is on it. -/
def packBytes : Nat → List Bool → List Byte
  | 0, _ => []
  | n + 1, bits => packByte (bits.take 8) :: packBytes n (bits.drop 8)

/-- The bytes a producer writes for a bit sequence: `ceil(m/8)` of them (R53). -/
def producerBytes (bits : List Bool) : List Byte := packBytes ((bits.length + 7) / 8) bits

end Sys2Proof.Machine
end

