-- ==== Sys2Proof/Certificates/Slice0/Obligations.lean ====
section
/-! DEFINITION. The statements for the provers. Each docstring says which rule of the spec it formalises. -/

open Sys2Proof Sys2Proof.Machine

/-! ## Encoding (30_encoding.md) -/

/-- R67: decoding is total, and every word decodes as R67's program says; the fields are written here as arithmetic on the
word's number. -/
def Obligations.DecodingIsTotalAndExact : Prop :=
  ∀ w : Word,
    (w.toNat / 8 % 32 ≠ 0 → decode w = .reserved) ∧
    (w.toNat / 8 % 32 = 0 →
      (w.toNat % 8 = 0 → decode w = .reserved) ∧
      (w.toNat % 8 = 1 → decode w = .command .openSource) ∧
      (w.toNat % 8 = 2 → decode w = .command .readBit) ∧
      (w.toNat % 8 = 3 → decode w = .command .readByte) ∧
      (w.toNat % 8 = 4 → decode w = .command (.writeBit (decide (w.toNat / 256 % 2 = 1)))) ∧
      (w.toNat % 8 = 5 → decode w = .command (.writeByte (BitVec.ofNat 8 (w.toNat / 256)))) ∧
      (w.toNat % 8 = 6 → decode w = .command .close) ∧
      (w.toNat % 8 = 7 → decode w = .reserved))

/-- R63: exactly the words with op 0, op 7 or a nonzero reserved field are reserved, and they are 64000 of the 65536. -/
def Obligations.ReservedWordsAre64000 : Prop :=
  (∀ w : Word, decode w = .reserved ↔ (opField w = 0 ∨ opField w = 7 ∨ rsvField w ≠ 0)) ∧
  (List.range 65536).countP (fun n => decode (BitVec.ofNat 16 n) = .reserved) = 64000

/-- R61, R62, R63, R68: decoding an encoded command gives it back, with every operand value; and a word that decodes to a
command is that command's encoding but for the bits R62 ignores. -/
def Obligations.DecodeAndEncodeAgree : Prop :=
  (∀ i : Instr, decode (encode i) = .command i) ∧
  (∀ (w : Word) (i : Instr), decode w = .command i →
    encode i = w &&& (match i with
      | .openSource => 0x00FF
      | .readBit => 0x00FF
      | .readByte => 0x00FF
      | .writeBit _ => 0x01FF
      | .writeByte _ => 0xFFFF
      | .close => 0x00FF))

/-- R62: the operand bits are where R62 puts them, and the ignored bits have no effect: two words with the same low byte
do the same (WRITE_BIT and WRITE_BYTE ignore their operands too, R80, R81). -/
def Obligations.IgnoredBitsHaveNoEffect : Prop :=
  (∀ (w : Word) (b : Byte), decode w = .command (.writeByte b) → b.toNat = w.toNat / 256) ∧
  (∀ (w : Word) (f : Bool), decode w = .command (.writeBit f) → f = w.toNat.testBit 8) ∧
  (∀ (w w' : Word) (s : State), w.toNat % 256 = w'.toNat % 256 → runWord w s = runWord w' s)

/-- R63, R68 and the words of 95_test_vectors.md. -/
def Obligations.WordsOfTheSpecDecode : Prop :=
  decode 0x0001 = .command .openSource ∧ decode 0x0002 = .command .readBit ∧ decode 0x0003 = .command .readByte ∧
  decode 0x0104 = .command (.writeBit true) ∧ decode 0xFE04 = .command (.writeBit false) ∧
  decode 0x4105 = .command (.writeByte 0x41) ∧ decode 0xAB06 = .command .close ∧
  decode 0x0000 = .reserved ∧ decode 0x0007 = .reserved ∧ decode 0x000B = .reserved ∧ decode 0xFFFF = .reserved ∧
  decode 0x00F9 = .reserved

/-- R64: the response word's fields; `respond` writes both fields of `rsp`, delivers the word and ends the command. With
the codes of R65 and R20. -/
def Obligations.ResponseWordAndRespond : Prop :=
  ([Status.ok, .endOfData, .misusedStream, .ioUnavailable, .corruptStream, .invalidCode].map Status.code =
    [0, 1, 2, 3, 4, 5]) ∧
  ([Phase.closed, .read, .fault].map Phase.code = [0, 1, 2]) ∧ (∀ p : Phase, p.code ≠ 3) ∧
  (∀ r : Response, r.word.toNat = 256 * r.status.code.toNat + r.data.toNat) ∧
  (∀ (st : Status) (d : Byte) (s : State),
    s.respond st d = { s with rsp := some ⟨st, d⟩, responses := s.responses ++ [⟨st, d⟩], inFlight := none })

/-- R68: the words the assembler emits for every line with operands in range, and the ill-formed ones it refuses. -/
def Obligations.AssemblerEmitsTheWords : Prop :=
  AsmLine.assemble .openSource = .ok 0x0001 ∧ AsmLine.assemble .readBit = .ok 0x0002 ∧
  AsmLine.assemble .readByte = .ok 0x0003 ∧ AsmLine.assemble .close = .ok 0x0006 ∧
  (∀ f : Nat, f ≤ 1 → AsmLine.assemble (.writeBit f) = .ok (BitVec.ofNat 16 (0x0004 + f * 256))) ∧
  (∀ b : Nat, b ≤ 255 → AsmLine.assemble (.writeByte b) = .ok (BitVec.ofNat 16 (0x0005 + b * 256))) ∧
  (∀ v : Nat, v ≤ 65535 → AsmLine.assemble (.rawWord v) = .ok (BitVec.ofNat 16 v)) ∧
  (∀ f : Nat, 1 < f → AsmLine.assemble (.writeBit f) = .error .outOfRange) ∧
  (∀ b : Nat, 255 < b → AsmLine.assemble (.writeByte b) = .error .outOfRange) ∧
  (∀ v : Nat, 65535 < v → AsmLine.assemble (.rawWord v) = .error .outOfRange)

/-! ## Configuration (00_scope.md) -/

/-- R6: the parameters' widths at the default capacity, and what CAP_BYTES is. -/
def Obligations.DefaultWidths : Prop :=
  Config.default.capBits = 2 ^ 20 ∧ Config.default.capBytes = 131072 ∧ Config.default.nbitsWidth = 21 ∧
  Config.default.reqWidth = 18 ∧ Config.default.wellFormed = true

/-- R22, R98: in every sound state the bit count fits the NBITS_W bits of its register, and a request's count REQ_W. -/
def Obligations.CountsFitTheirWidths : Prop :=
  ∀ s : State, s.Sound →
    s.nbits < 2 ^ s.cfg.nbitsWidth ∧ s.cfg.capBytes < 2 ^ s.cfg.reqWidth ∧ 1 ≤ s.cfg.capBytes

/-- R7: the source returns between 1 and min(remaining, max) bytes while bytes remain; every such number is some chunk
policy's; without a policy it returns all of min(remaining, max). -/
def Obligations.ChunkPolicies : Prop :=
  ∀ (x : Source) (max : Nat), 0 < max → x.mood.failed = false → x.remaining ≠ [] →
    (1 ≤ (x.answer max).length ∧ (x.answer max).length ≤ min x.remaining.length max) ∧
    (∀ (n : Nat) (later : List Nat), 1 ≤ n → n ≤ min x.remaining.length max →
      (Source.answer { x with chunks := n :: later } max).length = n) ∧
    (x.chunks = [] → (x.answer max).length = min x.remaining.length max)

/-! ## The byte source (20_memory.md) -/

/-- R41: a request answered takes at most `max` bytes from the front of the remaining sequence, removes exactly those,
returns none exactly when the source can supply none, and touches no other source. -/
def Obligations.SourceRequestTakesTheFront : Prop :=
  ∀ (max : Nat) (s t : State) (bytes : List Byte), s.Sound → 0 < max → srcRead max s = some (bytes, t) →
    bytes.length ≤ max ∧
    s.boundSource.remaining = bytes ++ t.boundSource.remaining ∧
    (bytes = [] ↔ (s.boundSource.remaining = [] ∨ s.boundSource.mood.failed = true)) ∧
    t.requests = s.requests ++ [⟨max, bytes.length⟩] ∧
    (∀ h : Nat, s.src ≠ some h → t.sources.read h = s.sources.read h)

/-- R42, R167: a request is answered exactly when the bound source is not stalled. -/
def Obligations.RequestBlocksWhileStalled : Prop :=
  ∀ (max : Nat) (s : State) (h : Nat), s.src = some h →
    (srcRead max s = none ↔ (s.sources.read h).mood.stalled = true)

/-- R43, R44, R45 (its last sentence but one): bit `i` of the stream is bit `7 - (i mod 8)` of byte `i div 8`. -/
def Obligations.StreamBitOrder : Prop :=
  ∀ (bytes : List Byte) (i : Nat), i < 8 * bytes.length →
    (bitSeq bytes)[i]? = some ((bytes.getD (i / 8) 0).getLsbD (7 - i % 8))

/-- The canonical form of the table of sources (log 3): every change of a source keeps it; the source changed reads as
written, every other as before. -/
def Obligations.SourceTableLaws : Prop :=
  ∀ (t : Sources) (h : Nat) (x : Source), t.wf = true →
    (t.write h x).wf = true ∧ (t.write h x).read h = x ∧ (∀ k : Nat, k ≠ h → (t.write h x).read k = t.read k)

/-! ## Refill and PopBit (41_read_commands.md) -/

/-- R91, R92: after a refill of `bytes`, cell `8n - 1 - (8j + k)` is bit `7 - k` of `bytes[j]`, the cells from `8n` up are
kept, and `nbits` is `8n`; a refill that gets no byte fails and leaves the buffer and its count. -/
def Obligations.RefillStorageOrder : Prop :=
  ∀ (s : State), s.Sound → s.canAnswer = true →
    (∀ t : State, refill s = .filled t →
      ∃ bytes : List Byte, bytes = s.boundSource.answer s.cfg.capBytes ∧ bytes ≠ [] ∧
        t.nbits = 8 * bytes.length ∧ t.nbits ≤ s.cfg.capBits ∧
        (∀ (j k : Nat) (b : Byte), bytes[j]? = some b → k < 8 →
          t.cell (8 * bytes.length - 1 - (8 * j + k)) = b.getLsbD (7 - k)) ∧
        (∀ i : Nat, 8 * bytes.length ≤ i → t.cell i = s.cell i)) ∧
    (∀ t : State, refill s = .fail t → s.boundSource.supply = [] ∧ t.buf = s.buf ∧ t.nbits = s.nbits) ∧
    (s.boundSource.supply ≠ [] → ∃ t : State, refill s = .filled t) ∧
    (s.boundSource.supply = [] → ∃ t : State, refill s = .fail t) ∧
    refill s ≠ .waiting

/-- R25, R92: the buffer in the pending view: a refill sets the pending sequence to the fetched bits in file order, and
PopBit removes its head. -/
def Obligations.BufferRefinesPending : Prop :=
  (∀ (s : State) (bytes : List Byte), (s.loadBuffer bytes).pending = bitSeq bytes) ∧
  (∀ s : State, s.nbits ≠ 0 → popBit s = .bit s.topBit s.dropTop ∧ s.pending = s.topBit :: s.dropTop.pending) ∧
  (∀ s : State, s.nbits = 0 → s.pending = [])

/-- R93, R169: a command word has a source request answered only as a read in READ that needs a bit the buffer has not, and
then exactly one, where the source answers. The record holds answered requests only: a request that waits is no entry of
it yet (log 5, log 12). -/
def Obligations.RefillIsLazy : Prop :=
  ∀ (w : Word) (s t : State), s.Inv → s.inFlight = none → runWord w s = .next t →
    (t.requests = s.requests ∨ ∃ n : Nat, n ≤ s.cfg.capBytes ∧ t.requests = s.requests ++ [⟨s.cfg.capBytes, n⟩]) ∧
    (t.requests ≠ s.requests ↔ (s.phase = .read ∧ s.nbits < bitsNeeded (decode w) ∧ s.canAnswer = true))

/-- R21: a cell at index `nbits` or above holds no value any rule reads: with other values there, every command word
gives the same response, count, pending bits, phase and sources. -/
def Obligations.StaleCellsAreNeverRead : Prop :=
  ∀ (w : Word) (s t t' : State) (buf' : List Bool), s.Sound → buf'.length ≤ s.cfg.capBits → s.nbits ≤ buf'.length →
    (∀ i : Nat, i < s.nbits → buf'[i]? = s.buf[i]?) →
    runWord w s = .next t → runWord w { s with buf := buf' } = .next t' →
    t'.rsp = t.rsp ∧ t'.responses = t.responses ∧ t'.nbits = t.nbits ∧ t'.pending = t.pending ∧ t'.phase = t.phase ∧
      t'.src = t.src ∧ t'.sources = t.sources ∧ t'.requests = t.requests ∧ t'.inFlight = t.inFlight

/-! ## The read commands -/

/-- R95: READ_BIT outside READ is a misuse; in READ it consumes and returns the next bit, or reports EndOfData when none
can be had; phase READ in both cases. Every word with low byte 0x02 is READ_BIT. -/
def Obligations.ReadBitResult : Prop :=
  (∀ w : Word, w.toNat % 256 = 2 → decode w = .command .readBit) ∧
  (∀ s : State, s.phase ≠ .read →
    exec .readBit s = .next { s with
      rsp := some ⟨.misusedStream, 0⟩, responses := s.responses ++ [⟨.misusedStream, 0⟩], inFlight := none }) ∧
  (∀ s : State, s.Inv → s.phase = .read → (s.nbits ≠ 0 ∨ s.canAnswer = true) →
    ∃ t : State, exec .readBit s = .next t ∧ t.phase = .read ∧ t.src = s.src ∧
      (∀ (b : Bool) (rest : List Bool), s.deliverable = b :: rest →
        t.rsp = some ⟨.ok, if b then 0x01 else 0x00⟩ ∧ t.deliverable = rest ∧
        (s.nbits ≠ 0 → t.nbits = s.nbits - 1 ∧ t.requests = s.requests) ∧
        (s.nbits = 0 → ∃ n : Nat, 1 ≤ n ∧ n ≤ s.cfg.capBytes ∧ t.nbits = 8 * n - 1 ∧
          t.requests = s.requests ++ [⟨s.cfg.capBytes, n⟩])) ∧
      (s.deliverable = [] →
        t.rsp = some ⟨.endOfData, 0⟩ ∧ t.nbits = 0 ∧ t.buf = s.buf ∧ t.sources = s.sources ∧
        t.requests = s.requests ++ [⟨s.cfg.capBytes, 0⟩]))

/-- READ_BIT with a bit in the buffer (R90, R95): its whole effect. -/
def Obligations.ReadBitFromTheBuffer : Prop :=
  ∀ s : State, s.phase = .read → s.nbits ≠ 0 →
    exec .readBit s = .next { s with
      nbits := s.nbits - 1
      rsp := some ⟨.ok, zext8 (s.cell (s.nbits - 1))⟩
      responses := s.responses ++ [⟨.ok, zext8 (s.cell (s.nbits - 1))⟩]
      inFlight := none }

/-- R94: READ_BYTE outside READ is a misuse; in READ it consumes the next eight bits and returns them as a byte, the first
in bit 7, or reports EndOfData with data 0x00 when there are fewer. Every word with low byte 0x03 is READ_BYTE. -/
def Obligations.ReadByteResult : Prop :=
  (∀ w : Word, w.toNat % 256 = 3 → decode w = .command .readByte) ∧
  (∀ s : State, s.phase ≠ .read →
    exec .readByte s = .next { s with
      rsp := some ⟨.misusedStream, 0⟩, responses := s.responses ++ [⟨.misusedStream, 0⟩], inFlight := none }) ∧
  (∀ s : State, s.Inv → s.phase = .read → (8 ≤ s.nbits ∨ s.canAnswer = true) →
    ∃ t : State, exec .readByte s = .next t ∧ t.phase = .read ∧ t.src = s.src ∧
      (8 ≤ s.deliverable.length →
        (∃ v : Byte, t.rsp = some ⟨.ok, v⟩ ∧
          v.toNat = ∑ k ∈ Finset.range 8, (if s.deliverable.getD k false then 2 ^ (7 - k) else 0)) ∧
        t.deliverable = s.deliverable.drop 8 ∧
        (8 ≤ s.nbits → t.nbits = s.nbits - 8 ∧ t.requests = s.requests) ∧
        (s.nbits < 8 → ∃ n : Nat, 1 ≤ n ∧ n ≤ s.cfg.capBytes ∧ t.nbits = 8 * n - (8 - s.nbits) ∧
          t.requests = s.requests ++ [⟨s.cfg.capBytes, n⟩])) ∧
      (s.deliverable.length < 8 →
        t.rsp = some ⟨.endOfData, 0⟩ ∧ t.nbits = 0 ∧ t.deliverable = [] ∧
        t.requests = s.requests ++ [⟨s.cfg.capBytes, 0⟩]))

/-- R46: at a byte boundary READ_BYTE returns the source byte unchanged; `r` bits past one it returns the low `8 - r` bits
of one byte followed by the high `r` bits of the next. -/
def Obligations.ReadByteAcrossByteBoundaries : Prop :=
  ∀ (s : State), s.Inv → s.phase = .read → (8 ≤ s.nbits ∨ s.canAnswer = true) →
    (∀ (a : Byte) (rest : List Byte), s.deliverable = bitSeq (a :: rest) →
      ∃ t : State, exec .readByte s = .next t ∧ t.rsp = some ⟨.ok, a⟩ ∧ t.deliverable = bitSeq rest) ∧
    (∀ (a b : Byte) (rest : List Byte) (r : Nat), r < 8 → s.deliverable = (bitSeq (a :: b :: rest)).drop r →
      ∃ t : State, exec .readByte s = .next t ∧ t.rsp = some ⟨.ok, (a <<< r) ||| (b >>> (8 - r))⟩ ∧
        t.deliverable = (bitSeq (b :: rest)).drop r)

/-- R96: when READ_BYTE fails the bits already popped stay consumed: `nbits` is 0, `buf` unchanged, the phase still READ,
the source as it was, and the response carries none of the bits. -/
def Obligations.FailingReadByteIsNotUndone : Prop :=
  ∀ (s : State), s.Inv → s.phase = .read → s.canAnswer = true → s.deliverable.length < 8 →
    exec .readByte s = .next { s with
      nbits := 0
      rsp := some ⟨.endOfData, 0⟩
      responses := s.responses ++ [⟨.endOfData, 0⟩]
      requests := s.requests ++ [⟨s.cfg.capBytes, 0⟩]
      inFlight := none } ∧
    s.deliverable.length = s.nbits

/-- R97: EndOfData is not sticky: the phase stays READ, and the next read runs again, makes a new request and fails
again. -/
def Obligations.EndOfDataRepeats : Prop :=
  ∀ (i j : Instr) (s t : State), s.Inv → s.phase = .read → s.canAnswer = true →
    (i = .readBit ∨ i = .readByte) → (j = .readBit ∨ j = .readByte) →
    exec i s = .next t → t.rsp = some ⟨.endOfData, 0⟩ →
    t.phase = .read ∧
    ∃ u : State, exec j t = .next u ∧ u.rsp = some ⟨.endOfData, 0⟩ ∧ u.phase = .read ∧ u.nbits = 0 ∧
      u.requests = t.requests ++ [⟨s.cfg.capBytes, 0⟩]

/-- The frame of the read commands (R48, R49, R51, R94, R95): in READ they change no phase, binding, side operand,
configuration, command channel or other source; the bound source only loses the bytes returned; without a request
neither `buf` nor any source changes; at most one response more. -/
def Obligations.ReadCommandsFrame : Prop :=
  ∀ (i : Instr) (s t : State), s.Inv → (i = .readBit ∨ i = .readByte) → s.phase = .read → exec i s = .next t →
    t.cfg = s.cfg ∧ t.phase = s.phase ∧ t.src = s.src ∧ t.srcIn = s.srcIn ∧ t.commands = s.commands ∧
    t.inputs = s.inputs ∧
    (t.responses = s.responses ∨ ∃ r : Response, t.responses = s.responses ++ [r] ∧ t.rsp = some r) ∧
    (∀ h : Nat, s.src ≠ some h → t.sources.read h = s.sources.read h) ∧
    t.boundSource.mood = s.boundSource.mood ∧
    s.boundSource.remaining =
      s.boundSource.remaining.take (t.fetched - s.fetched) ++ t.boundSource.remaining ∧
    s.fetched ≤ t.fetched ∧
    (t.requests = s.requests → t.buf = s.buf ∧ t.sources = s.sources ∧ t.fetched = s.fetched)

/-- R28, R99: the stream position rises by 1 per successful READ_BIT, by 8 per successful READ_BYTE and by the bits lost
per failed READ_BYTE, and the stream loses exactly those bits. -/
def Obligations.PositionCountsDeliveredBits : Prop :=
  ∀ (s : State), s.Inv → s.phase = .read → s.canAnswer = true →
    (∃ t : State, exec .readBit s = .next t ∧
      t.position = s.position + (if s.deliverable = [] then 0 else 1) ∧
      t.stream = s.stream.drop (t.position - s.position)) ∧
    (∃ t : State, exec .readByte s = .next t ∧
      t.position = s.position + (if s.deliverable.length < 8 then s.nbits else 8) ∧
      t.stream = s.stream.drop (t.position - s.position))

/-! ## Lifecycle (42_lifecycle.md) -/

/-- R120: OPEN in CLOSED with a source binds it with an empty buffer, in phase READ, without a source request; in CLOSED
with none it reports IOUnavailable and changes nothing else; in READ and FAULT it is a misuse. Every word with low byte
0x01 is OPEN. -/
def Obligations.OpenBindsOrReports : Prop :=
  (∀ w : Word, w.toNat % 256 = 1 → decode w = .command .openSource) ∧
  ∀ s : State,
    (∀ h : Nat, s.phase = .closed → s.srcIn = some h →
      exec .openSource s = .next { s with
        src := some h, nbits := 0, phase := .read, fetched := 0
        rsp := some ⟨.ok, 0⟩, responses := s.responses ++ [⟨.ok, 0⟩], inFlight := none }) ∧
    (s.phase = .closed → s.srcIn = none →
      exec .openSource s = .next { s with
        rsp := some ⟨.ioUnavailable, 0⟩, responses := s.responses ++ [⟨.ioUnavailable, 0⟩], inFlight := none }) ∧
    (s.phase ≠ .closed →
      exec .openSource s = .next { s with
        phase := .fault
        rsp := some ⟨.misusedStream, 0⟩, responses := s.responses ++ [⟨.misusedStream, 0⟩], inFlight := none })

/-- R40, R120: the stream of a newly opened source is the bits of its remaining bytes, at position 0. -/
def Obligations.OpenStartsAtTheNextByte : Prop :=
  ∀ (s t : State) (h : Nat), s.phase = .closed → s.srcIn = some h → exec .openSource s = .next t →
    t.stream = bitSeq (s.sources.read h).remaining ∧ t.position = 0 ∧ t.pending = [] ∧ t.requests = s.requests

/-- R121: CLOSE in every phase discards the buffered bits, unbinds, moves to CLOSED and answers OK; nothing else changes,
no source request is made. Every word with low byte 0x06 is CLOSE. -/
def Obligations.CloseReleases : Prop :=
  (∀ w : Word, w.toNat % 256 = 6 → decode w = .command .close) ∧
  ∀ s : State,
    exec .close s = .next { s with
      src := none, nbits := 0, phase := .closed, fetched := 0
      rsp := some ⟨.ok, 0⟩, responses := s.responses ++ [⟨.ok, 0⟩], inFlight := none }

/-- R165: after CLOSE a second OPEN of the same source starts after the last fetched byte: the bits still buffered are
lost to it, and none are lost when the buffer was empty. -/
def Obligations.HandOverLosesBufferedBits : Prop :=
  ∀ (s t u : State) (h : Nat), s.Inv → s.src = some h → s.srcIn = some h →
    exec .close s = .next t → exec .openSource t = .next u →
    u.rsp = some ⟨.ok, 0⟩ ∧ u.stream = s.stream.drop s.nbits ∧ (s.nbits = 0 → u.stream = s.stream)

/-! ## Write commands, misuse, reserved words (40, 60) -/

/-- R80, R81: WRITE_BIT and WRITE_BYTE are a misuse in every phase, whatever the operand: READ becomes FAULT, and nothing
but the response changes. With their words and operands. -/
def Obligations.WriteCommandsAreRejected : Prop :=
  (∀ w : Word, w.toNat % 256 = 4 → decode w = .command (.writeBit (decide (w.toNat / 256 % 2 = 1)))) ∧
  (∀ w : Word, w.toNat % 256 = 5 → decode w = .command (.writeByte (BitVec.ofNat 8 (w.toNat / 256)))) ∧
  ∀ (s : State) (f : Bool) (b : Byte),
    exec (.writeBit f) s = .next { s with
      phase := (if s.phase = .read then .fault else s.phase)
      rsp := some ⟨.misusedStream, 0⟩, responses := s.responses ++ [⟨.misusedStream, 0⟩], inFlight := none } ∧
    exec (.writeByte b) s = .next { s with
      phase := (if s.phase = .read then .fault else s.phase)
      rsp := some ⟨.misusedStream, 0⟩, responses := s.responses ++ [⟨.misusedStream, 0⟩], inFlight := none }

/-- R144, R146: a reserved word is a misuse in every phase: READ becomes FAULT, and nothing but the response changes. -/
def Obligations.ReservedWordsAreMisuse : Prop :=
  ∀ (w : Word) (s : State), (w.toNat % 8 = 0 ∨ w.toNat % 8 = 7 ∨ w.toNat / 8 % 32 ≠ 0) →
    runWord w s = .next { s with
      phase := (if s.phase = .read then .fault else s.phase)
      rsp := some ⟨.misusedStream, 0⟩, responses := s.responses ++ [⟨.misusedStream, 0⟩], inFlight := none }

/-- R147: in FAULT every word but CLOSE answers MisusedStream, 0x00, and nothing else happens, for any number of words;
CLOSE leaves FAULT. -/
def Obligations.FaultIsDeadUntilClose : Prop :=
  (∀ s : State, s.phase = .fault → ∃ t : State, exec .close s = .next t ∧ t.phase = .closed ∧ t.rsp = some ⟨.ok, 0⟩) ∧
  ∀ (ws : List Word) (s : State), s.phase = .fault → s.inFlight = none →
    (∀ w ∈ ws, decode w ≠ .command .close) →
    issueAll ws s = .next { s with
      rsp := (if ws = [] then s.rsp else some ⟨.misusedStream, 0⟩)
      responses := s.responses ++ List.replicate ws.length ⟨.misusedStream, 0⟩ }

/-- R149, R150: every command word in every phase: the status in R150's order of checks, the phase of R149's table, one
response, whose data is 0x00 unless a read succeeded (R66). -/
def Obligations.OutcomeTable : Prop :=
  ∀ (w : Word) (s : State), s.Inv → (s.phase = .read → bitsNeeded (decode w) ≤ s.nbits ∨ s.canAnswer = true) →
    ∃ (t : State) (d : Byte), runWord w s = .next t ∧
      t.rsp = some ⟨expectedStatus (decode w) s, d⟩ ∧
      t.responses = s.responses ++ [⟨expectedStatus (decode w) s, d⟩] ∧
      t.inFlight = none ∧
      t.phase = expectedPhase (decode w) s ∧
      ((bitsNeeded (decode w) = 0 ∨ expectedStatus (decode w) s ≠ .ok) → d = 0)

/-- R151: a word answered with an error changes nothing but what its rule says: the response, a misuse's phase, and at
EndOfData the buffered bits and the request answered with 0 bytes (log 12: the record of requests). A late EndOfData is a
READ_BYTE that had popped at most 7 bits, and leaves those consumed. -/
def Obligations.ErrorsArePrecise : Prop :=
  ∀ (w : Word) (s t : State) (r : Response), s.Inv →
    (s.phase = .read → bitsNeeded (decode w) ≤ s.nbits ∨ s.canAnswer = true) →
    runWord w s = .next t → t.rsp = some r → r.status ≠ .ok →
    t = { s with
      phase := (if misused (decode w) s.phase ∧ s.phase = .read then .fault else s.phase)
      nbits := (if r.status = .endOfData then 0 else s.nbits)
      rsp := some ⟨r.status, 0⟩
      responses := s.responses ++ [⟨r.status, 0⟩]
      requests := (if r.status = .endOfData then s.requests ++ [⟨s.cfg.capBytes, 0⟩] else s.requests)
      inFlight := none } ∧
    (r.status = .endOfData → s.nbits ≠ 0 → decode w = .command .readByte ∧ s.nbits ≤ 7)

/-! ## The step: channels, waiting, reset (20, 60, 70) -/

/-- R51, R67: a free block runs the oldest word on the command channel: `exec` of what it decodes to, with the word's
side operand taken along (R60); a reserved word is a misuse. -/
def Obligations.StepRunsTheDecodedCommand : Prop :=
  ∀ (s : State) (c : Command) (rest : List Command), s.inFlight = none → s.commands = c :: rest →
    (∀ i : Instr, decode c.word = .command i →
      step s = exec i { s with commands := rest, srcIn := c.srcIn }) ∧
    (decode c.word = .reserved →
      step s = .next (State.misuse { s with commands := rest, srcIn := c.srcIn }))

/-- The host's way of placing an instruction (log 15): the very next step runs it. -/
def Obligations.PlacedWordRunsNext : Prop :=
  ∀ (s : State) (w : Nat) (i : Instr), w < 65536 → decodeTableWord 16 w = some i →
    step (s.withFetchWord 16 w) = exec i { s with inFlight := none }

/-- R166: while a command is in progress no other is accepted: a command sent early is held, behind what is on the
channel, and nothing else changes; no step takes anything off the channel. That what is held stays there when reset ends
the command in progress, and a command sent just before that reset with it, is the model's choice (log 10). -/
def Obligations.EarlyCommandIsHeld : Prop :=
  ∀ (s : State) (op : InFlight), s.inFlight = some op →
    (∀ (c : Command) (rest : List Input), s.canAnswer = false → s.inputs = .command c :: rest →
      step s = .next { s with inputs := rest, commands := s.commands ++ [c] }) ∧
    (∀ t : State, step s = .next t →
      ((s.canAnswer = true ∨ s.inputs = []) → t.commands = s.commands) ∧
      (∀ (e : Input) (rest : List Input), s.canAnswer = false → s.inputs = e :: rest →
        (∀ (c : Command) (lost : Nat), e = .resetDuring c lost → t.commands = s.commands ++ [c]) ∧
        ((∀ c : Command, e ≠ .command c) → (∀ (c : Command) (lost : Nat), e ≠ .resetDuring c lost) →
          t.commands = s.commands)))

/-- R167: a source that never answers hangs the block: as long as the outside world does nothing, any number of steps
leaves the state as it is, with no response. -/
def Obligations.StalledSourceHangs : Prop :=
  ∀ (s : State) (op : InFlight), s.inFlight = some op → s.canAnswer = false → s.inputs = [] →
    ∀ k : Nat, Host.Core.run core k s = .next s

/-- R42, R94, R95: a read that needs a byte from a stalled source waits: READ_BIT as it was, READ_BYTE with the buffered
bits consumed into its accumulator; no response, no answered request. -/
def Obligations.ReadOfStalledSourceWaits : Prop :=
  ∀ s : State, s.Inv → s.phase = .read → s.canAnswer = false →
    (s.nbits = 0 → exec .readBit s = .next { s with inFlight := some .readBit }) ∧
    (s.nbits < 8 → ∃ acc : Byte,
      exec .readByte s = .next { s with nbits := 0, inFlight := some (.readByte (8 - s.nbits) acc) } ∧
      acc.toNat < 2 ^ s.nbits ∧
      (∀ k : Nat, k < s.nbits → s.pending[k]? = some (acc.getLsbD (s.nbits - 1 - k))))

/-- R42, R51: waiting changes nothing but the time: a read that waited, once its source answers, with its bytes or with a
read error that came meanwhile, leaves exactly what it would have left had the source answered so at once; with the
error that is EndOfData (R41, D10). How the waiting is held is the model's form (log 5). -/
def Obligations.WaitingOnlyDelays : Prop :=
  ∀ (i : Instr) (s t : State) (op : InFlight) (error : Bool), s.Inv → s.inFlight = none →
    (i = .readBit ∨ i = .readByte) → s.phase = .read → s.boundSource.mood.stalled = true → exec i s = .next t →
    t.inFlight = some op →
    exec i (s.wake error) = .next (resume op (t.wake error)) ∧ step (t.wake error) = .next (resume op (t.wake error)) ∧
    (error = true → resume op (t.wake error) = { s.wake error with
      nbits := 0
      rsp := some ⟨.endOfData, 0⟩
      responses := s.responses ++ [⟨.endOfData, 0⟩]
      requests := s.requests ++ [⟨s.cfg.capBytes, 0⟩]
      inFlight := none })

/-- R160: reset, between commands or during one, leaves CLOSED, no bits, unbound, no response pending, nothing in
progress; it delivers no response and makes no request; the configuration is unchanged. -/
def Obligations.ResetEvent : Prop :=
  ∀ (s : State) (e : Input) (rest : List Input), s.outsideTurn = true → s.inputs = e :: rest → e.isReset = true →
    ∃ t : State, step s = .next t ∧ t.phase = .closed ∧ t.nbits = 0 ∧ t.src = none ∧ t.rsp = none ∧
      t.inFlight = none ∧ t.cfg = s.cfg ∧ t.inputs = rest ∧ t.responses = s.responses ∧ t.requests = s.requests ∧
      (∀ lost : Nat, e = .reset lost → t.commands = s.commands)

/-- R161: reset while a command waits abandons it: no response is delivered for it, no answered request is recorded; the
bound source keeps its bytes but for at most CAP_BYTES of a late answer, and no other source changes. -/
def Obligations.ResetAbandonsTheWaitingCommand : Prop :=
  ∀ (s : State) (op : InFlight) (lost h : Nat) (rest : List Input), s.Inv → s.inFlight = some op →
    s.canAnswer = false → s.inputs = .reset lost :: rest → s.src = some h →
    ∃ (t : State) (n : Nat), step s = .next t ∧ t.inFlight = none ∧ t.responses = s.responses ∧
      t.requests = s.requests ∧ t.rsp = none ∧ n ≤ s.cfg.capBytes ∧
      (t.sources.read h).remaining = (s.sources.read h).remaining.drop n ∧
      (∀ k : Nat, k ≠ h → t.sources.read k = s.sources.read k)

/-- R161: reset while the block performs a command just sent: no response is delivered for it and it is gone; if it is a
read in READ that needs a byte, the bound source keeps its bytes but for at most CAP_BYTES, else every source is as it
was. -/
def Obligations.ResetAbandonsTheCommandPerformed : Prop :=
  ∀ (s : State) (c : Command) (lost : Nat) (rest : List Input), s.Inv → s.inFlight = none → s.commands = [] →
    s.inputs = .resetDuring c lost :: rest →
    ∃ (t : State) (n : Nat), step s = .next t ∧ t.inFlight = none ∧ t.commands = [] ∧ t.responses = s.responses ∧
      t.requests = s.requests ∧ t.rsp = none ∧ n ≤ s.cfg.capBytes ∧
      (∀ h : Nat, s.src = some h → (t.sources.read h).remaining = (s.sources.read h).remaining.drop n) ∧
      (∀ k : Nat, s.src ≠ some k → t.sources.read k = s.sources.read k) ∧
      (¬ (s.phase = .read ∧ s.nbits < bitsNeeded (decode c.word)) → t.sources = s.sources)

/-- R32, R160: the state after reset, as the spec gives it; the default capacity. -/
def Obligations.ResetStateOfTheSpec : Prop :=
  State.reset.phase = .closed ∧ State.reset.nbits = 0 ∧ State.reset.src = none ∧ State.reset.rsp = none ∧
  State.reset.inFlight = none ∧ State.reset.cfg.capBits = 1048576 ∧ core.reset = State.reset

/-- R171: an idle block keeps all its state as long as nothing arrives, for any number of steps. -/
def Obligations.IdleKeepsTheState : Prop :=
  ∀ s : State, s.inFlight = none → s.commands = [] → s.inputs = [] →
    ∀ k : Nat, Host.Core.run core k s = .next s

/-- R31: no outside doing but reset reads as a change of the block: phase, buffer, count, binding, response and the
command in progress stay, and so does every bit buffered (R52). -/
def Obligations.OutsideLeavesTheBlockAlone : Prop :=
  ∀ (e : Input) (s t : State), e.isReset = false → applyInput e s = .next t →
    t.phase = s.phase ∧ t.buf = s.buf ∧ t.nbits = s.nbits ∧ t.src = s.src ∧ t.rsp = s.rsp ∧
    t.inFlight = s.inFlight ∧ t.responses = s.responses ∧ t.pending = s.pending

/-- R163, R168, U8: the only step without a next state is the host changing the bytes of the bound source; a host that
behaves never stops the machine (log 11). -/
def Obligations.OnlyADisturbedSourceStops : Prop :=
  (∀ (s : State) (r : Refusal), step s = .refused r → r = .sourceDisturbed ∧ s.hostBehaves = false) ∧
  (∀ s : State, s.hostBehaves = true → ∃ t : State, step s = .next t) ∧
  (∀ (s : State) (e : Input) (rest : List Input), s.outsideTurn = true → s.inputs = e :: rest →
    disturbs e s = true → step s = .refused .sourceDisturbed)

/-- R40, R41, R42, R60, R160, R163, R166: what the outside doings do, when it is the outside world's turn: a command sent
joins the channel at its end; a source stalls or answers again, comes to a read error, or is set, and no other source and
nothing else of the state changes; reset with nothing in progress leaves every source alone. That a read error of the
bound source outlasts its being set is log 6. -/
def Obligations.OutsideDoingsTakeEffect : Prop :=
  ∀ (s : State) (e : Input) (rest : List Input), s.Inv → s.outsideTurn = true → s.inputs = e :: rest →
    (∀ c : Command, e = .command c → step s = .next { s with inputs := rest, commands := s.commands ++ [c] }) ∧
    (∀ (h : Nat) (b : Bool), e = .setStalled h b → ∃ t : Sources, step s = .next { s with inputs := rest, sources := t } ∧
      t.read h = { s.sources.read h with mood := ⟨b, (s.sources.read h).mood.failed⟩ } ∧
      (∀ k : Nat, k ≠ h → t.read k = s.sources.read k)) ∧
    (∀ h : Nat, e = .readError h → ∃ t : Sources, step s = .next { s with inputs := rest, sources := t } ∧
      t.read h = { s.sources.read h with mood := ⟨(s.sources.read h).mood.stalled, true⟩ } ∧
      (∀ k : Nat, k ≠ h → t.read k = s.sources.read k)) ∧
    (∀ (h : Nat) (x : Source), e = .setSource h x → (s.src ≠ some h ∨ x.remaining = (s.sources.read h).remaining) →
      ∃ t : Sources, step s = .next { s with inputs := rest, sources := t } ∧
        (s.src ≠ some h → t.read h = x) ∧
        (s.src = some h → t.read h =
          { x with mood := ⟨x.mood.stalled, x.mood.failed || (s.sources.read h).mood.failed⟩ }) ∧
        (∀ k : Nat, k ≠ h → t.read k = s.sources.read k)) ∧
    (∀ lost : Nat, e = .reset lost → s.inFlight = none → ∃ t : State, step s = .next t ∧ t.sources = s.sources)

/-! ## Whole-machine rules -/

/-- R26, R98: every step from a state that meets the invariant gives one that meets it. -/
def Obligations.StepKeepsTheInvariant : Prop :=
  ∀ s t : State, s.Inv → step s = .next t → t.Inv

/-- R26: the state after reset meets the invariant. -/
def Obligations.ResetMeetsTheInvariant : Prop := State.reset.Inv ∧ State.reset.responsesLegal = true

/-- R24, R65, R66, R140: every response ever delivered is legal (never CorruptStream or InvalidCode, data 0x00 unless OK),
and `rsp` is the last of them or nothing; every step keeps that. -/
def Obligations.ResponsesStayLegal : Prop :=
  ∀ s t : State, s.responsesLegal = true → step s = .next t → t.responsesLegal = true

/-- R20, R32, R148: how the phase changes in a step: into READ only by OPEN from CLOSED, into FAULT only by a misuse from
READ, into CLOSED only by CLOSE or reset. -/
def Obligations.PhaseChangesOnlyByItsCauses : Prop :=
  ∀ s t : State, s.Inv → step s = .next t → t.phase ≠ s.phase →
    (t.phase = .read → s.phase = .closed ∧ ∃ (c : Command) (rest : List Command), s.inFlight = none ∧
      s.commands = c :: rest ∧ decode c.word = .command .openSource ∧ c.srcIn.isSome = true) ∧
    (t.phase = .fault → s.phase = .read ∧ t.rsp = some ⟨.misusedStream, 0⟩) ∧
    (t.phase = .closed →
      (∃ (c : Command) (rest : List Command), s.inFlight = none ∧ s.commands = c :: rest ∧
        decode c.word = .command .close) ∨
      (∃ (e : Input) (rest : List Input), s.outsideTurn = true ∧ s.inputs = e :: rest ∧ e.isReset = true))

/-- R5, R29, R160: no step changes the configuration. -/
def Obligations.ConfigurationNeverChanges : Prop :=
  ∀ s t : State, step s = .next t → t.cfg = s.cfg

/-- R24, R60, R169: one step delivers at most one response and makes at most one source request, for at most CAP_BYTES
bytes; the channels' records only grow. -/
def Obligations.OneResponseOneRequestAStep : Prop :=
  ∀ s t : State, s.Inv → step s = .next t →
    (t.responses = s.responses ∨ ∃ r : Response, t.responses = s.responses ++ [r] ∧ t.rsp = some r ∧
      t.inFlight = none) ∧
    (t.requests = s.requests ∨
      ∃ n : Nat, n ≤ s.cfg.capBytes ∧ t.requests = s.requests ++ [⟨s.cfg.capBytes, n⟩])

/-- R45 over any run: as long as the binding lasts, whatever the source's chunks, stalls and failures and whatever the
commands, the stream only loses bits at its front, exactly as many as the position has risen. -/
def Obligations.StreamIsConsumedInOrder : Prop :=
  ∀ (k h : Nat) (s t : State), s.Inv → boundRun h k s t →
    s.position ≤ t.position ∧ t.stream = s.stream.drop (t.position - s.position)

/-- R45, the stream law: open a ready source and send any words but CLOSE: the bits delivered, then the at most seven lost
to a failing READ_BYTE, then what can still be delivered, are the bits of the source in order; bits are lost only when
nothing more can be delivered. -/
def Obligations.StreamLaw : Prop :=
  ∀ (ws : List Word) (s : State) (h : Nat), s.Inv → s.phase = .closed → s.inFlight = none → s.srcIn = some h →
    (s.sources.read h).mood = .ready → (∀ w ∈ ws, decode w ≠ .command .close) →
    ∃ (t : State) (lost : List Bool), issueAll (encode .openSource :: ws) s = .next t ∧
      (t.responsesSince s.responses.length).length = ws.length + 1 ∧
      bitSeq (s.sources.read h).remaining =
        deliveredBits (encode .openSource :: ws) (t.responsesSince s.responses.length) ++ lost ++ t.deliverable ∧
      lost.length ≤ 7 ∧ (lost ≠ [] → t.deliverable = [])

/-- R100: two readers that differ in capacity, chunk policy and read-ahead only answer every sequence of words without
CLOSE with the same responses, and stay so related or both leave READ. (Across a CLOSE and a re-OPEN of one source this
is false by R165: log 18.) -/
def Obligations.ResponsesIgnoreChunkingAndCapacity : Prop :=
  ∀ (ws : List Word) (s s' : State), SameToIssuer s s' → (∀ w ∈ ws, decode w ≠ .command .close) →
    ∃ t t' : State, issueAll ws s = .next t ∧ issueAll ws s' = .next t' ∧
      t.responsesSince s.responses.length = t'.responsesSince s'.responses.length ∧ SameToIssuer t t'

/-- R53: what a producer writes for `m` bits: `ceil(m/8)` bytes whose bits are the `m` bits and then the padding zeros. -/
def Obligations.ProducerPadsWithZeros : Prop :=
  ∀ bits : List Bool,
    (producerBytes bits).length = (bits.length + 7) / 8 ∧
    bitSeq (producerBytes bits) = bits ++ List.replicate ((8 - bits.length % 8) % 8) false

/-- R54 and L1-1 of 95_test_vectors.md: a reader opened on what a producer wrote delivers the bits, then the padding zeros
as ordinary bits, then EndOfData for ever. -/
def Obligations.ReaderReturnsWhatTheProducerWrote : Prop :=
  ∀ (bits : List Bool) (n : Nat) (s : State), s.Inv → s.phase = .read → s.nbits = 0 → s.inFlight = none →
    s.src.isSome = true → s.boundSource.mood = .ready → s.boundSource.remaining = producerBytes bits →
    ∃ t : State, issueAll (List.replicate n (encode .readBit)) s = .next t ∧
      t.responsesSince s.responses.length =
        ((bits ++ List.replicate ((8 - bits.length % 8) % 8) false).take n).map
            (fun b => (⟨.ok, if b then 0x01 else 0x00⟩ : Response)) ++
          List.replicate (n - 8 * (producerBytes bits).length) ⟨.endOfData, 0⟩
end

