-- ==== Sys2Proof/Laws/Bits.lean ====
section
/-! SUPPORT. Bytes as bits: lengths, concatenation, single bits, and READ_BYTE's accumulator as a number. -/

namespace Sys2Proof.Machine

@[simp] theorem bitsMsb_length (b : Byte) : (bitsMsb b).length = 8 := rfl

@[simp] theorem bitSeq_nil : bitSeq [] = [] := rfl

theorem bitSeq_cons (b : Byte) (bs : List Byte) : bitSeq (b :: bs) = bitsMsb b ++ bitSeq bs := rfl

@[simp] theorem bitSeq_length (bytes : List Byte) : (bitSeq bytes).length = 8 * bytes.length := by
  induction bytes with
  | nil => rfl
  | cons b bs ih => simp [bitSeq_cons, ih]; omega

theorem bitSeq_append (l m : List Byte) : bitSeq (l ++ m) = bitSeq l ++ bitSeq m := by
  induction l with
  | nil => rfl
  | cons b bs ih => simp [bitSeq_cons, ih]

/-- The bits of the first bytes, then the bits of the rest. -/
theorem bitSeq_take_drop (l : List Byte) (n : Nat) : bitSeq (l.take n) ++ bitSeq (l.drop n) = bitSeq l := by
  rw [← bitSeq_append, List.take_append_drop]

theorem bitSeq_eq_nil (l : List Byte) : bitSeq l = [] ↔ l = [] := by
  rw [← List.length_eq_zero_iff, bitSeq_length, ← List.length_eq_zero_iff]; omega

/-- Bit `k` of `bitsMsb b` is bit `7 - k` of the byte (R43). -/
theorem bitsMsb_getElem? (b : Byte) (k : Nat) (hk : k < 8) : (bitsMsb b)[k]? = some (b.getLsbD (7 - k)) := by
  interval_cases k <;> rfl

/-- Bit `8j + k` of a sequence of bytes is bit `7 - k` of byte `j` (R45). -/
theorem bitSeq_getElem? (bytes : List Byte) (j k : Nat) (hj : j < bytes.length) (hk : k < 8) :
    (bitSeq bytes)[8 * j + k]? = some ((bytes[j]).getLsbD (7 - k)) := by
  induction bytes generalizing j with
  | nil => simp at hj
  | cons b bs ih =>
    cases j with
    | zero =>
      rw [bitSeq_cons, List.getElem?_append_left (by simpa using hk)]
      simpa using bitsMsb_getElem? b k hk
    | succ j =>
      rw [bitSeq_cons, List.getElem?_append_right (by simp; omega)]
      have := ih j (by simpa using hj)
      simp only [bitsMsb_length, List.getElem_cons_succ]
      rw [← this]; congr 1; omega

@[simp] theorem zext8_toNat (b : Bool) : (zext8 b).toNat = b.toNat := by cases b <;> rfl

/-- One step of the accumulator, as a number (R98): nothing is lost while it holds fewer than 8 bits. -/
theorem shiftIn_toNat (v : Byte) (b : Bool) (hv : v.toNat < 128) : (shiftIn v b).toNat = 2 * v.toNat + b.toNat := by
  have h : ∀ v : BitVec 8, v.toNat < 128 → ∀ b : Bool, (shiftIn v b).toNat = 2 * v.toNat + b.toNat := by decide
  exact h v hv b

end Sys2Proof.Machine
end

