-- ==== Sys2Proof/Laws/Sources.lean ====
section
/-! SUPPORT. The table of byte sources: reading after writing, and that every change keeps the canonical form. -/

namespace Sys2Proof.Machine

theorem Sources.read_of_above (t : Sources) (k h : Nat) (hk : t.above k = true) (hh : h ≤ k) :
    t.read h = Source.empty := by
  induction t with
  | nil => rfl
  | cons e rest ih =>
    obtain ⟨j, y⟩ := e
    simp only [Sources.above, Bool.and_eq_true, decide_eq_true_eq] at hk
    have : ¬ j = h := by omega
    simp [Sources.read, this, ih hk.2]

theorem Sources.above_mono (t : Sources) (j k : Nat) (hk : t.above k = true) (hjk : j ≤ k) : t.above j = true := by
  induction t with
  | nil => rfl
  | cons e rest ih =>
    obtain ⟨i, y⟩ := e
    simp only [Sources.above, Bool.and_eq_true, decide_eq_true_eq] at hk ⊢
    exact ⟨by omega, ih hk.2⟩

theorem Sources.put_above (j h : Nat) (x : Source) (rest : Sources) (hj : j < h) (hr : rest.above j = true) :
    (Sources.put h x rest).above j = true := by
  unfold Sources.put
  split
  · exact hr
  · simp [Sources.above, hj, hr]

theorem Sources.write_above (t : Sources) (j h : Nat) (x : Source) (hj : j < h) (ht : t.above j = true) :
    (t.write h x).above j = true := by
  induction t with
  | nil => exact Sources.put_above j h x [] hj rfl
  | cons e rest ih =>
    obtain ⟨k, y⟩ := e
    have ht' := ht
    simp only [Sources.above, Bool.and_eq_true, decide_eq_true_eq] at ht'
    simp only [Sources.write]
    split
    · exact Sources.put_above j h x _ hj ht
    · split
      · exact Sources.put_above j h x _ hj ht'.2
      · simp [Sources.above, ht'.1, ih ht'.2]

theorem Sources.put_wf (h : Nat) (x : Source) (rest : Sources) (ha : rest.above h = true) (hr : rest.wf = true) :
    (Sources.put h x rest).wf = true := by
  unfold Sources.put
  split
  · exact hr
  · rename_i hx
    simp [Sources.wf, hx, ha, hr]

/-- Every change of a source keeps the canonical form. -/
theorem Sources.write_wf (t : Sources) (h : Nat) (x : Source) (ht : t.wf = true) : (t.write h x).wf = true := by
  induction t with
  | nil => exact Sources.put_wf h x [] rfl rfl
  | cons e rest ih =>
    obtain ⟨k, y⟩ := e
    have ht' := ht
    simp only [Sources.wf, Bool.and_eq_true, decide_eq_true_eq] at ht'
    obtain ⟨⟨hy, ha⟩, hr⟩ := ht'
    simp only [Sources.write]
    split
    · rename_i hk
      refine Sources.put_wf h x _ ?_ ht
      simp [Sources.above, hk, Sources.above_mono rest h k ha (by omega)]
    · split
      · rename_i _ hk
        exact Sources.put_wf h x rest (by rw [hk]; exact ha) hr
      · rename_i h1 h2
        simp [Sources.wf, hy, ih hr, Sources.write_above rest k h x (by omega) ha]

theorem Sources.read_put_same (h : Nat) (x : Source) (rest : Sources) (hr : rest.above h = true) :
    (Sources.put h x rest).read h = x := by
  unfold Sources.put
  split
  · rename_i hx
    rw [hx]; exact Sources.read_of_above rest h h hr (Nat.le_refl h)
  · simp [Sources.read]

theorem Sources.read_put_other (h k : Nat) (x : Source) (rest : Sources) (hk : k ≠ h) :
    (Sources.put h x rest).read k = rest.read k := by
  unfold Sources.put
  split
  · rfl
  · simp [Sources.read, Ne.symm hk]

/-- Reading the source just changed gives the new one. -/
theorem Sources.read_write_same (t : Sources) (h : Nat) (x : Source) (ht : t.wf = true) :
    (t.write h x).read h = x := by
  induction t with
  | nil => exact Sources.read_put_same h x [] rfl
  | cons e rest ih =>
    obtain ⟨k, y⟩ := e
    simp only [Sources.wf, Bool.and_eq_true, decide_eq_true_eq] at ht
    obtain ⟨⟨hy, ha⟩, hr⟩ := ht
    simp only [Sources.write]
    split
    · rename_i hk
      refine Sources.read_put_same h x _ ?_
      simp [Sources.above, hk, Sources.above_mono rest h k ha (by omega)]
    · split
      · rename_i _ hk
        exact Sources.read_put_same h x rest (by rw [hk]; exact ha)
      · rename_i h1 h2
        simp [Sources.read, Ne.symm h2, ih hr]

/-- Changing one source leaves every other source as it was. -/
theorem Sources.read_write_other (t : Sources) (h k : Nat) (x : Source) (hk : k ≠ h) :
    (t.write h x).read k = t.read k := by
  induction t with
  | nil => exact Sources.read_put_other h k x [] hk
  | cons e rest ih =>
    obtain ⟨j, y⟩ := e
    simp only [Sources.write]
    split
    · exact Sources.read_put_other h k x _ hk
    · split
      · rename_i _ hj
        subst hj
        simp [Sources.read_put_other h k x rest hk, Sources.read, Ne.symm hk]
      · simp only [Sources.read, ih]

/-- In a canonical table, writing a source back as it is changes nothing. -/
theorem Sources.write_read_self (t : Sources) (h : Nat) (ht : t.wf = true) : t.write h (t.read h) = t := by
  induction t with
  | nil => rfl
  | cons e rest ih =>
    obtain ⟨k, y⟩ := e
    simp only [Sources.wf, Bool.and_eq_true, decide_eq_true_eq] at ht
    obtain ⟨⟨hy, ha⟩, hr⟩ := ht
    by_cases hk : k = h
    · subst hk
      simp [Sources.read, Sources.write, Sources.put, hy]
    · simp only [Sources.read, hk, if_false, Sources.write, Ne.symm hk]
      split
      · rename_i hlt
        simp [Sources.put, Sources.read_of_above rest k h ha (by omega)]
      · rw [ih hr]

end Sys2Proof.Machine
end

