-- ==== Sys2Proof/Laws/State.lean ====
section
/-! SUPPORT. What each named update of the state leaves in each field. -/

namespace Sys2Proof.Machine

/-! ## responding -/

@[simp] theorem respond_cfg (st : Status) (d : Byte) (s : State) : (s.respond st d).cfg = s.cfg := rfl
@[simp] theorem respond_phase (st : Status) (d : Byte) (s : State) : (s.respond st d).phase = s.phase := rfl
@[simp] theorem respond_buf (st : Status) (d : Byte) (s : State) : (s.respond st d).buf = s.buf := rfl
@[simp] theorem respond_nbits (st : Status) (d : Byte) (s : State) : (s.respond st d).nbits = s.nbits := rfl
@[simp] theorem respond_src (st : Status) (d : Byte) (s : State) : (s.respond st d).src = s.src := rfl
@[simp] theorem respond_rsp (st : Status) (d : Byte) (s : State) : (s.respond st d).rsp = some ⟨st, d⟩ := rfl
@[simp] theorem respond_inFlight (st : Status) (d : Byte) (s : State) : (s.respond st d).inFlight = none := rfl
@[simp] theorem respond_srcIn (st : Status) (d : Byte) (s : State) : (s.respond st d).srcIn = s.srcIn := rfl
@[simp] theorem respond_sources (st : Status) (d : Byte) (s : State) : (s.respond st d).sources = s.sources := rfl
@[simp] theorem respond_commands (st : Status) (d : Byte) (s : State) : (s.respond st d).commands = s.commands := rfl
@[simp] theorem respond_inputs (st : Status) (d : Byte) (s : State) : (s.respond st d).inputs = s.inputs := rfl
@[simp] theorem respond_responses (st : Status) (d : Byte) (s : State) : (s.respond st d).responses = s.responses ++ [⟨st, d⟩] := rfl
@[simp] theorem respond_requests (st : Status) (d : Byte) (s : State) : (s.respond st d).requests = s.requests := rfl
@[simp] theorem respond_fetched (st : Status) (d : Byte) (s : State) : (s.respond st d).fetched = s.fetched := rfl

/-! ## an error's response -/

@[simp] theorem raise_cfg (st : Status) (s : State) : (s.raise st).cfg = s.cfg := rfl
@[simp] theorem raise_phase (st : Status) (s : State) : (s.raise st).phase = s.phase := rfl
@[simp] theorem raise_buf (st : Status) (s : State) : (s.raise st).buf = s.buf := rfl
@[simp] theorem raise_nbits (st : Status) (s : State) : (s.raise st).nbits = s.nbits := rfl
@[simp] theorem raise_src (st : Status) (s : State) : (s.raise st).src = s.src := rfl
@[simp] theorem raise_rsp (st : Status) (s : State) : (s.raise st).rsp = some ⟨st, 0⟩ := rfl
@[simp] theorem raise_inFlight (st : Status) (s : State) : (s.raise st).inFlight = none := rfl
@[simp] theorem raise_srcIn (st : Status) (s : State) : (s.raise st).srcIn = s.srcIn := rfl
@[simp] theorem raise_sources (st : Status) (s : State) : (s.raise st).sources = s.sources := rfl
@[simp] theorem raise_commands (st : Status) (s : State) : (s.raise st).commands = s.commands := rfl
@[simp] theorem raise_inputs (st : Status) (s : State) : (s.raise st).inputs = s.inputs := rfl
@[simp] theorem raise_responses (st : Status) (s : State) : (s.raise st).responses = s.responses ++ [⟨st, 0⟩] := rfl
@[simp] theorem raise_requests (st : Status) (s : State) : (s.raise st).requests = s.requests := rfl
@[simp] theorem raise_fetched (st : Status) (s : State) : (s.raise st).fetched = s.fetched := rfl

/-! ## a misuse (R146) -/

@[simp] theorem misuse_cfg (s : State) : s.misuse.cfg = s.cfg := rfl
@[simp] theorem misuse_phase (s : State) : s.misuse.phase = s.phase.afterMisuse := rfl
@[simp] theorem misuse_buf (s : State) : s.misuse.buf = s.buf := rfl
@[simp] theorem misuse_nbits (s : State) : s.misuse.nbits = s.nbits := rfl
@[simp] theorem misuse_src (s : State) : s.misuse.src = s.src := rfl
@[simp] theorem misuse_rsp (s : State) : s.misuse.rsp = some ⟨.misusedStream, 0⟩ := rfl
@[simp] theorem misuse_inFlight (s : State) : s.misuse.inFlight = none := rfl
@[simp] theorem misuse_srcIn (s : State) : s.misuse.srcIn = s.srcIn := rfl
@[simp] theorem misuse_sources (s : State) : s.misuse.sources = s.sources := rfl
@[simp] theorem misuse_commands (s : State) : s.misuse.commands = s.commands := rfl
@[simp] theorem misuse_inputs (s : State) : s.misuse.inputs = s.inputs := rfl
@[simp] theorem misuse_responses (s : State) : s.misuse.responses = s.responses ++ [⟨.misusedStream, 0⟩] := rfl
@[simp] theorem misuse_requests (s : State) : s.misuse.requests = s.requests := rfl
@[simp] theorem misuse_fetched (s : State) : s.misuse.fetched = s.fetched := rfl

/-! ## storing a refill (R91) -/

@[simp] theorem loadBuffer_cfg (bytes : List Byte) (s : State) : (s.loadBuffer bytes).cfg = s.cfg := rfl
@[simp] theorem loadBuffer_phase (bytes : List Byte) (s : State) : (s.loadBuffer bytes).phase = s.phase := rfl
@[simp] theorem loadBuffer_buf (bytes : List Byte) (s : State) : (s.loadBuffer bytes).buf = (bitSeq bytes).reverse ++ s.buf.drop (8 * bytes.length) := rfl
@[simp] theorem loadBuffer_nbits (bytes : List Byte) (s : State) : (s.loadBuffer bytes).nbits = 8 * bytes.length := rfl
@[simp] theorem loadBuffer_src (bytes : List Byte) (s : State) : (s.loadBuffer bytes).src = s.src := rfl
@[simp] theorem loadBuffer_rsp (bytes : List Byte) (s : State) : (s.loadBuffer bytes).rsp = s.rsp := rfl
@[simp] theorem loadBuffer_inFlight (bytes : List Byte) (s : State) : (s.loadBuffer bytes).inFlight = s.inFlight := rfl
@[simp] theorem loadBuffer_srcIn (bytes : List Byte) (s : State) : (s.loadBuffer bytes).srcIn = s.srcIn := rfl
@[simp] theorem loadBuffer_sources (bytes : List Byte) (s : State) : (s.loadBuffer bytes).sources = s.sources := rfl
@[simp] theorem loadBuffer_commands (bytes : List Byte) (s : State) : (s.loadBuffer bytes).commands = s.commands := rfl
@[simp] theorem loadBuffer_inputs (bytes : List Byte) (s : State) : (s.loadBuffer bytes).inputs = s.inputs := rfl
@[simp] theorem loadBuffer_responses (bytes : List Byte) (s : State) : (s.loadBuffer bytes).responses = s.responses := rfl
@[simp] theorem loadBuffer_requests (bytes : List Byte) (s : State) : (s.loadBuffer bytes).requests = s.requests := rfl
@[simp] theorem loadBuffer_fetched (bytes : List Byte) (s : State) : (s.loadBuffer bytes).fetched = s.fetched := rfl

/-! ## removing the top bit (R90) -/

@[simp] theorem dropTop_cfg (s : State) : s.dropTop.cfg = s.cfg := rfl
@[simp] theorem dropTop_phase (s : State) : s.dropTop.phase = s.phase := rfl
@[simp] theorem dropTop_buf (s : State) : s.dropTop.buf = s.buf := rfl
@[simp] theorem dropTop_nbits (s : State) : s.dropTop.nbits = s.nbits - 1 := rfl
@[simp] theorem dropTop_src (s : State) : s.dropTop.src = s.src := rfl
@[simp] theorem dropTop_rsp (s : State) : s.dropTop.rsp = s.rsp := rfl
@[simp] theorem dropTop_inFlight (s : State) : s.dropTop.inFlight = s.inFlight := rfl
@[simp] theorem dropTop_srcIn (s : State) : s.dropTop.srcIn = s.srcIn := rfl
@[simp] theorem dropTop_sources (s : State) : s.dropTop.sources = s.sources := rfl
@[simp] theorem dropTop_commands (s : State) : s.dropTop.commands = s.commands := rfl
@[simp] theorem dropTop_inputs (s : State) : s.dropTop.inputs = s.inputs := rfl
@[simp] theorem dropTop_responses (s : State) : s.dropTop.responses = s.responses := rfl
@[simp] theorem dropTop_requests (s : State) : s.dropTop.requests = s.requests := rfl
@[simp] theorem dropTop_fetched (s : State) : s.dropTop.fetched = s.fetched := rfl

/-! ## waiting on the source (R42) -/

@[simp] theorem park_cfg (op : InFlight) (s : State) : (s.park op).cfg = s.cfg := rfl
@[simp] theorem park_phase (op : InFlight) (s : State) : (s.park op).phase = s.phase := rfl
@[simp] theorem park_buf (op : InFlight) (s : State) : (s.park op).buf = s.buf := rfl
@[simp] theorem park_nbits (op : InFlight) (s : State) : (s.park op).nbits = s.nbits := rfl
@[simp] theorem park_src (op : InFlight) (s : State) : (s.park op).src = s.src := rfl
@[simp] theorem park_rsp (op : InFlight) (s : State) : (s.park op).rsp = s.rsp := rfl
@[simp] theorem park_inFlight (op : InFlight) (s : State) : (s.park op).inFlight = some op := rfl
@[simp] theorem park_srcIn (op : InFlight) (s : State) : (s.park op).srcIn = s.srcIn := rfl
@[simp] theorem park_sources (op : InFlight) (s : State) : (s.park op).sources = s.sources := rfl
@[simp] theorem park_commands (op : InFlight) (s : State) : (s.park op).commands = s.commands := rfl
@[simp] theorem park_inputs (op : InFlight) (s : State) : (s.park op).inputs = s.inputs := rfl
@[simp] theorem park_responses (op : InFlight) (s : State) : (s.park op).responses = s.responses := rfl
@[simp] theorem park_requests (op : InFlight) (s : State) : (s.park op).requests = s.requests := rfl
@[simp] theorem park_fetched (op : InFlight) (s : State) : (s.park op).fetched = s.fetched := rfl

/-! ## binding a source (R120) -/

@[simp] theorem bindTo_cfg (h : Nat) (s : State) : (s.bindTo h).cfg = s.cfg := rfl
@[simp] theorem bindTo_phase (h : Nat) (s : State) : (s.bindTo h).phase = .read := rfl
@[simp] theorem bindTo_buf (h : Nat) (s : State) : (s.bindTo h).buf = s.buf := rfl
@[simp] theorem bindTo_nbits (h : Nat) (s : State) : (s.bindTo h).nbits = 0 := rfl
@[simp] theorem bindTo_src (h : Nat) (s : State) : (s.bindTo h).src = some h := rfl
@[simp] theorem bindTo_rsp (h : Nat) (s : State) : (s.bindTo h).rsp = s.rsp := rfl
@[simp] theorem bindTo_inFlight (h : Nat) (s : State) : (s.bindTo h).inFlight = s.inFlight := rfl
@[simp] theorem bindTo_srcIn (h : Nat) (s : State) : (s.bindTo h).srcIn = s.srcIn := rfl
@[simp] theorem bindTo_sources (h : Nat) (s : State) : (s.bindTo h).sources = s.sources := rfl
@[simp] theorem bindTo_commands (h : Nat) (s : State) : (s.bindTo h).commands = s.commands := rfl
@[simp] theorem bindTo_inputs (h : Nat) (s : State) : (s.bindTo h).inputs = s.inputs := rfl
@[simp] theorem bindTo_responses (h : Nat) (s : State) : (s.bindTo h).responses = s.responses := rfl
@[simp] theorem bindTo_requests (h : Nat) (s : State) : (s.bindTo h).requests = s.requests := rfl
@[simp] theorem bindTo_fetched (h : Nat) (s : State) : (s.bindTo h).fetched = 0 := rfl

/-! ## releasing the source (R121) -/

@[simp] theorem release_cfg (s : State) : s.release.cfg = s.cfg := rfl
@[simp] theorem release_phase (s : State) : s.release.phase = .closed := rfl
@[simp] theorem release_buf (s : State) : s.release.buf = s.buf := rfl
@[simp] theorem release_nbits (s : State) : s.release.nbits = 0 := rfl
@[simp] theorem release_src (s : State) : s.release.src = none := rfl
@[simp] theorem release_rsp (s : State) : s.release.rsp = s.rsp := rfl
@[simp] theorem release_inFlight (s : State) : s.release.inFlight = s.inFlight := rfl
@[simp] theorem release_srcIn (s : State) : s.release.srcIn = s.srcIn := rfl
@[simp] theorem release_sources (s : State) : s.release.sources = s.sources := rfl
@[simp] theorem release_commands (s : State) : s.release.commands = s.commands := rfl
@[simp] theorem release_inputs (s : State) : s.release.inputs = s.inputs := rfl
@[simp] theorem release_responses (s : State) : s.release.responses = s.responses := rfl
@[simp] theorem release_requests (s : State) : s.release.requests = s.requests := rfl
@[simp] theorem release_fetched (s : State) : s.release.fetched = 0 := rfl

/-! ## accepting a command (R166) -/

@[simp] theorem accept_cfg (c : Command) (rest : List Command) (s : State) : (s.accept c rest).cfg = s.cfg := rfl
@[simp] theorem accept_phase (c : Command) (rest : List Command) (s : State) : (s.accept c rest).phase = s.phase := rfl
@[simp] theorem accept_buf (c : Command) (rest : List Command) (s : State) : (s.accept c rest).buf = s.buf := rfl
@[simp] theorem accept_nbits (c : Command) (rest : List Command) (s : State) : (s.accept c rest).nbits = s.nbits := rfl
@[simp] theorem accept_src (c : Command) (rest : List Command) (s : State) : (s.accept c rest).src = s.src := rfl
@[simp] theorem accept_rsp (c : Command) (rest : List Command) (s : State) : (s.accept c rest).rsp = s.rsp := rfl
@[simp] theorem accept_inFlight (c : Command) (rest : List Command) (s : State) : (s.accept c rest).inFlight = s.inFlight := rfl
@[simp] theorem accept_srcIn (c : Command) (rest : List Command) (s : State) : (s.accept c rest).srcIn = c.srcIn := rfl
@[simp] theorem accept_sources (c : Command) (rest : List Command) (s : State) : (s.accept c rest).sources = s.sources := rfl
@[simp] theorem accept_commands (c : Command) (rest : List Command) (s : State) : (s.accept c rest).commands = rest := rfl
@[simp] theorem accept_inputs (c : Command) (rest : List Command) (s : State) : (s.accept c rest).inputs = s.inputs := rfl
@[simp] theorem accept_responses (c : Command) (rest : List Command) (s : State) : (s.accept c rest).responses = s.responses := rfl
@[simp] theorem accept_requests (c : Command) (rest : List Command) (s : State) : (s.accept c rest).requests = s.requests := rfl
@[simp] theorem accept_fetched (c : Command) (rest : List Command) (s : State) : (s.accept c rest).fetched = s.fetched := rfl

/-! ## sending a command (R60) -/

@[simp] theorem send_cfg (c : Command) (s : State) : (s.send c).cfg = s.cfg := rfl
@[simp] theorem send_phase (c : Command) (s : State) : (s.send c).phase = s.phase := rfl
@[simp] theorem send_buf (c : Command) (s : State) : (s.send c).buf = s.buf := rfl
@[simp] theorem send_nbits (c : Command) (s : State) : (s.send c).nbits = s.nbits := rfl
@[simp] theorem send_src (c : Command) (s : State) : (s.send c).src = s.src := rfl
@[simp] theorem send_rsp (c : Command) (s : State) : (s.send c).rsp = s.rsp := rfl
@[simp] theorem send_inFlight (c : Command) (s : State) : (s.send c).inFlight = s.inFlight := rfl
@[simp] theorem send_srcIn (c : Command) (s : State) : (s.send c).srcIn = s.srcIn := rfl
@[simp] theorem send_sources (c : Command) (s : State) : (s.send c).sources = s.sources := rfl
@[simp] theorem send_commands (c : Command) (s : State) : (s.send c).commands = s.commands ++ [c] := rfl
@[simp] theorem send_inputs (c : Command) (s : State) : (s.send c).inputs = s.inputs := rfl
@[simp] theorem send_responses (c : Command) (s : State) : (s.send c).responses = s.responses := rfl
@[simp] theorem send_requests (c : Command) (s : State) : (s.send c).requests = s.requests := rfl
@[simp] theorem send_fetched (c : Command) (s : State) : (s.send c).fetched = s.fetched := rfl

/-! ## a source stalling or answering again (R42) -/

@[simp] theorem setStalled_cfg (h : Nat) (b : Bool) (s : State) : (s.setStalled h b).cfg = s.cfg := rfl
@[simp] theorem setStalled_phase (h : Nat) (b : Bool) (s : State) : (s.setStalled h b).phase = s.phase := rfl
@[simp] theorem setStalled_buf (h : Nat) (b : Bool) (s : State) : (s.setStalled h b).buf = s.buf := rfl
@[simp] theorem setStalled_nbits (h : Nat) (b : Bool) (s : State) : (s.setStalled h b).nbits = s.nbits := rfl
@[simp] theorem setStalled_src (h : Nat) (b : Bool) (s : State) : (s.setStalled h b).src = s.src := rfl
@[simp] theorem setStalled_rsp (h : Nat) (b : Bool) (s : State) : (s.setStalled h b).rsp = s.rsp := rfl
@[simp] theorem setStalled_inFlight (h : Nat) (b : Bool) (s : State) : (s.setStalled h b).inFlight = s.inFlight := rfl
@[simp] theorem setStalled_srcIn (h : Nat) (b : Bool) (s : State) : (s.setStalled h b).srcIn = s.srcIn := rfl
@[simp] theorem setStalled_sources (h : Nat) (b : Bool) (s : State) : (s.setStalled h b).sources = s.sources.write h { s.sources.read h with mood := { (s.sources.read h).mood with stalled := b } } := rfl
@[simp] theorem setStalled_commands (h : Nat) (b : Bool) (s : State) : (s.setStalled h b).commands = s.commands := rfl
@[simp] theorem setStalled_inputs (h : Nat) (b : Bool) (s : State) : (s.setStalled h b).inputs = s.inputs := rfl
@[simp] theorem setStalled_responses (h : Nat) (b : Bool) (s : State) : (s.setStalled h b).responses = s.responses := rfl
@[simp] theorem setStalled_requests (h : Nat) (b : Bool) (s : State) : (s.setStalled h b).requests = s.requests := rfl
@[simp] theorem setStalled_fetched (h : Nat) (b : Bool) (s : State) : (s.setStalled h b).fetched = s.fetched := rfl

/-! ## a read error of a source (R41) -/

@[simp] theorem readError_cfg (h : Nat) (s : State) : (s.readError h).cfg = s.cfg := rfl
@[simp] theorem readError_phase (h : Nat) (s : State) : (s.readError h).phase = s.phase := rfl
@[simp] theorem readError_buf (h : Nat) (s : State) : (s.readError h).buf = s.buf := rfl
@[simp] theorem readError_nbits (h : Nat) (s : State) : (s.readError h).nbits = s.nbits := rfl
@[simp] theorem readError_src (h : Nat) (s : State) : (s.readError h).src = s.src := rfl
@[simp] theorem readError_rsp (h : Nat) (s : State) : (s.readError h).rsp = s.rsp := rfl
@[simp] theorem readError_inFlight (h : Nat) (s : State) : (s.readError h).inFlight = s.inFlight := rfl
@[simp] theorem readError_srcIn (h : Nat) (s : State) : (s.readError h).srcIn = s.srcIn := rfl
@[simp] theorem readError_sources (h : Nat) (s : State) : (s.readError h).sources = s.sources.write h { s.sources.read h with mood := { (s.sources.read h).mood with failed := true } } := rfl
@[simp] theorem readError_commands (h : Nat) (s : State) : (s.readError h).commands = s.commands := rfl
@[simp] theorem readError_inputs (h : Nat) (s : State) : (s.readError h).inputs = s.inputs := rfl
@[simp] theorem readError_responses (h : Nat) (s : State) : (s.readError h).responses = s.responses := rfl
@[simp] theorem readError_requests (h : Nat) (s : State) : (s.readError h).requests = s.requests := rfl
@[simp] theorem readError_fetched (h : Nat) (s : State) : (s.readError h).fetched = s.fetched := rfl

/-! ## placing the next command -/

@[simp] theorem withNextCommand_cfg (w : Word) (s : State) : (s.withNextCommand w).cfg = s.cfg := rfl
@[simp] theorem withNextCommand_phase (w : Word) (s : State) : (s.withNextCommand w).phase = s.phase := rfl
@[simp] theorem withNextCommand_buf (w : Word) (s : State) : (s.withNextCommand w).buf = s.buf := rfl
@[simp] theorem withNextCommand_nbits (w : Word) (s : State) : (s.withNextCommand w).nbits = s.nbits := rfl
@[simp] theorem withNextCommand_src (w : Word) (s : State) : (s.withNextCommand w).src = s.src := rfl
@[simp] theorem withNextCommand_rsp (w : Word) (s : State) : (s.withNextCommand w).rsp = s.rsp := rfl
@[simp] theorem withNextCommand_inFlight (w : Word) (s : State) : (s.withNextCommand w).inFlight = none := rfl
@[simp] theorem withNextCommand_srcIn (w : Word) (s : State) : (s.withNextCommand w).srcIn = s.srcIn := rfl
@[simp] theorem withNextCommand_sources (w : Word) (s : State) : (s.withNextCommand w).sources = s.sources := rfl
@[simp] theorem withNextCommand_commands (w : Word) (s : State) : (s.withNextCommand w).commands = ⟨w, s.srcIn⟩ :: s.commands := rfl
@[simp] theorem withNextCommand_inputs (w : Word) (s : State) : (s.withNextCommand w).inputs = s.inputs := rfl
@[simp] theorem withNextCommand_responses (w : Word) (s : State) : (s.withNextCommand w).responses = s.responses := rfl
@[simp] theorem withNextCommand_requests (w : Word) (s : State) : (s.withNextCommand w).requests = s.requests := rfl
@[simp] theorem withNextCommand_fetched (w : Word) (s : State) : (s.withNextCommand w).fetched = s.fetched := rfl

/-! ## an answered request (R41): only the sources, the record of requests and the byte count change -/

@[simp] theorem afterRequest_cfg (max : Nat) (s : State) : (s.afterRequest max).cfg = s.cfg := by
  unfold State.afterRequest; split <;> rfl
@[simp] theorem afterRequest_phase (max : Nat) (s : State) : (s.afterRequest max).phase = s.phase := by
  unfold State.afterRequest; split <;> rfl
@[simp] theorem afterRequest_buf (max : Nat) (s : State) : (s.afterRequest max).buf = s.buf := by
  unfold State.afterRequest; split <;> rfl
@[simp] theorem afterRequest_nbits (max : Nat) (s : State) : (s.afterRequest max).nbits = s.nbits := by
  unfold State.afterRequest; split <;> rfl
@[simp] theorem afterRequest_src (max : Nat) (s : State) : (s.afterRequest max).src = s.src := by
  unfold State.afterRequest; split <;> rfl
@[simp] theorem afterRequest_rsp (max : Nat) (s : State) : (s.afterRequest max).rsp = s.rsp := by
  unfold State.afterRequest; split <;> rfl
@[simp] theorem afterRequest_inFlight (max : Nat) (s : State) : (s.afterRequest max).inFlight = s.inFlight := by
  unfold State.afterRequest; split <;> rfl
@[simp] theorem afterRequest_srcIn (max : Nat) (s : State) : (s.afterRequest max).srcIn = s.srcIn := by
  unfold State.afterRequest; split <;> rfl
@[simp] theorem afterRequest_commands (max : Nat) (s : State) : (s.afterRequest max).commands = s.commands := by
  unfold State.afterRequest; split <;> rfl
@[simp] theorem afterRequest_inputs (max : Nat) (s : State) : (s.afterRequest max).inputs = s.inputs := by
  unfold State.afterRequest; split <;> rfl
@[simp] theorem afterRequest_responses (max : Nat) (s : State) : (s.afterRequest max).responses = s.responses := by
  unfold State.afterRequest; split <;> rfl

/-! ## reset (R160) -/

@[simp] theorem resetBlock_cfg (lost : Nat) (s : State) : (s.resetBlock lost).cfg = s.cfg := rfl
@[simp] theorem resetBlock_phase (lost : Nat) (s : State) : (s.resetBlock lost).phase = .closed := rfl
@[simp] theorem resetBlock_buf (lost : Nat) (s : State) : (s.resetBlock lost).buf = [] := rfl
@[simp] theorem resetBlock_nbits (lost : Nat) (s : State) : (s.resetBlock lost).nbits = 0 := rfl
@[simp] theorem resetBlock_src (lost : Nat) (s : State) : (s.resetBlock lost).src = none := rfl
@[simp] theorem resetBlock_rsp (lost : Nat) (s : State) : (s.resetBlock lost).rsp = none := rfl
@[simp] theorem resetBlock_inFlight (lost : Nat) (s : State) : (s.resetBlock lost).inFlight = none := rfl
@[simp] theorem resetBlock_srcIn (lost : Nat) (s : State) : (s.resetBlock lost).srcIn = none := rfl
@[simp] theorem resetBlock_sources (lost : Nat) (s : State) : (s.resetBlock lost).sources = (s.discardLateAnswer lost).sources := rfl
@[simp] theorem resetBlock_commands (lost : Nat) (s : State) : (s.resetBlock lost).commands = s.commands := rfl
@[simp] theorem resetBlock_inputs (lost : Nat) (s : State) : (s.resetBlock lost).inputs = s.inputs := rfl
@[simp] theorem resetBlock_responses (lost : Nat) (s : State) : (s.resetBlock lost).responses = s.responses := rfl
@[simp] theorem resetBlock_requests (lost : Nat) (s : State) : (s.resetBlock lost).requests = s.requests := rfl
@[simp] theorem resetBlock_fetched (lost : Nat) (s : State) : (s.resetBlock lost).fetched = 0 := rfl

/-! ## a command cut short by reset (R161): only the command in progress and the channel change -/

@[simp] theorem interruptedIn_cfg (c : Command) (s : State) : (s.interruptedIn c).cfg = s.cfg := by
  unfold State.interruptedIn; split <;> [rfl; (split <;> rfl)]
@[simp] theorem interruptedIn_phase (c : Command) (s : State) : (s.interruptedIn c).phase = s.phase := by
  unfold State.interruptedIn; split <;> [rfl; (split <;> rfl)]
@[simp] theorem interruptedIn_buf (c : Command) (s : State) : (s.interruptedIn c).buf = s.buf := by
  unfold State.interruptedIn; split <;> [rfl; (split <;> rfl)]
@[simp] theorem interruptedIn_nbits (c : Command) (s : State) : (s.interruptedIn c).nbits = s.nbits := by
  unfold State.interruptedIn; split <;> [rfl; (split <;> rfl)]
@[simp] theorem interruptedIn_src (c : Command) (s : State) : (s.interruptedIn c).src = s.src := by
  unfold State.interruptedIn; split <;> [rfl; (split <;> rfl)]
@[simp] theorem interruptedIn_rsp (c : Command) (s : State) : (s.interruptedIn c).rsp = s.rsp := by
  unfold State.interruptedIn; split <;> [rfl; (split <;> rfl)]
@[simp] theorem interruptedIn_srcIn (c : Command) (s : State) : (s.interruptedIn c).srcIn = s.srcIn := by
  unfold State.interruptedIn; split <;> [rfl; (split <;> rfl)]
@[simp] theorem interruptedIn_sources (c : Command) (s : State) : (s.interruptedIn c).sources = s.sources := by
  unfold State.interruptedIn; split <;> [rfl; (split <;> rfl)]
@[simp] theorem interruptedIn_inputs (c : Command) (s : State) : (s.interruptedIn c).inputs = s.inputs := by
  unfold State.interruptedIn; split <;> [rfl; (split <;> rfl)]
@[simp] theorem interruptedIn_responses (c : Command) (s : State) : (s.interruptedIn c).responses = s.responses := by
  unfold State.interruptedIn; split <;> [rfl; (split <;> rfl)]
@[simp] theorem interruptedIn_requests (c : Command) (s : State) : (s.interruptedIn c).requests = s.requests := by
  unfold State.interruptedIn; split <;> [rfl; (split <;> rfl)]
@[simp] theorem interruptedIn_fetched (c : Command) (s : State) : (s.interruptedIn c).fetched = s.fetched := by
  unfold State.interruptedIn; split <;> [rfl; (split <;> rfl)]

/-! ## a source that answers, with no read error (R41) -/

@[simp] theorem ready_stalled : Mood.ready.stalled = false := rfl
@[simp] theorem ready_failed : Mood.ready.failed = false := rfl

/-! ## a source the collaborator sets (R163, R97) -/

theorem sourceSet_of_unbound (h : Nat) (x : Source) (s : State) (hs : s.src ≠ some h) : s.sourceSet h x = x := by
  simp [State.sourceSet, hs]
@[simp] theorem sourceSet_remaining (h : Nat) (x : Source) (s : State) : (s.sourceSet h x).remaining = x.remaining := by
  unfold State.sourceSet; split <;> rfl

end Sys2Proof.Machine
end

