-- ==== Sys2Proof/Laws/Reading.lean ====
section
/-! SUPPORT. What the shared operations of reading can do, said once: SrcRead (R41), Refill (R91, R92), PopBit (R90), the
bit loop of READ_BYTE (R94). -/

namespace Sys2Proof.Machine

/-! ## A source's answer (R7, R41) -/

theorem Source.pick_le (x : Source) (max : Nat) : x.pick max ≤ min x.supply.length max := by
  unfold Source.pick; split <;> omega

theorem Source.pick_pos (x : Source) (max : Nat) (hs : x.supply ≠ []) (hm : 0 < max) : 0 < x.pick max := by
  have : 0 < x.supply.length := List.length_pos_iff.mpr hs
  unfold Source.pick
  split
  · omega
  · rename_i k _ _
    have : 1 ≤ Nat.max 1 k := Nat.le_max_left 1 k
    omega

@[simp] theorem Source.answer_length (x : Source) (max : Nat) : (x.answer max).length = x.pick max := by
  have := x.pick_le max
  simp [Source.answer]; omega

theorem Source.answer_eq_nil (x : Source) (max : Nat) (hm : 0 < max) : x.answer max = [] ↔ x.supply = [] := by
  constructor
  · intro h
    by_contra hs
    have := x.pick_pos max hs hm
    rw [← x.answer_length max, h] at this
    simp at this
  · intro h; simp [Source.answer, h]

/-- An answer of 0 bytes changes nothing (R49). -/
theorem Source.afterAnswer_of_nil (x : Source) (max : Nat) (hs : x.supply = []) : x.afterAnswer max = x := by
  have := x.pick_le max
  rw [hs] at this
  have h0 : x.pick max = 0 := by simpa using this
  simp [Source.afterAnswer, h0]

@[simp] theorem Source.afterAnswer_mood (x : Source) (max : Nat) : (x.afterAnswer max).mood = x.mood := by
  unfold Source.afterAnswer; split <;> rfl

theorem Source.afterAnswer_remaining (x : Source) (max : Nat) :
    (x.afterAnswer max).remaining = x.remaining.drop (x.pick max) := by
  unfold Source.afterAnswer
  split
  · rename_i h; simp [h]
  · rfl

theorem Source.afterAnswer_supply (x : Source) (max : Nat) :
    (x.afterAnswer max).supply = x.supply.drop (x.pick max) := by
  rw [Source.supply, Source.afterAnswer_mood, Source.afterAnswer_remaining]
  cases h : x.mood.failed <;> simp [Source.supply, h]

/-- The answer, then what the source can supply afterwards, is what it could supply before. -/
theorem Source.answer_append_supply (x : Source) (max : Nat) :
    x.answer max ++ (x.afterAnswer max).supply = x.supply := by
  rw [Source.afterAnswer_supply, Source.answer, List.take_append_drop]

/-- The answer is also the front of the remaining sequence (R41). -/
theorem Source.answer_append_remaining (x : Source) (max : Nat) :
    x.answer max ++ (x.afterAnswer max).remaining = x.remaining := by
  rw [Source.afterAnswer_remaining, Source.answer]
  cases h : x.mood.failed
  · simp [Source.supply, h]
  · have := x.pick_le max
    simp [Source.supply, h] at this
    simp [Source.supply, h, this]

/-! ## The bound source -/

theorem State.boundSource_of (s : State) (h : Nat) (hs : s.src = some h) : s.boundSource = s.sources.read h := by
  simp [State.boundSource, hs]

@[simp] theorem State.cell_of_buf (s t : State) (i : Nat) (h : t.buf = s.buf) : t.cell i = s.cell i := by
  simp [State.cell, h]

theorem State.boundSource_congr (s t : State) (h1 : t.src = s.src) (h2 : t.sources = s.sources) :
    t.boundSource = s.boundSource := by
  simp [State.boundSource, h1, h2]

theorem State.canAnswer_congr (s t : State) (h1 : t.src = s.src) (h2 : t.boundSource.mood = s.boundSource.mood) :
    t.canAnswer = s.canAnswer := by
  simp [State.canAnswer, h1, h2]

/-- The bound source after a request has answered it. -/
theorem State.afterRequest_boundSource (max : Nat) (s : State) (hb : s.src.isSome = true) (hw : s.sources.wf = true) :
    (s.afterRequest max).boundSource = s.boundSource.afterAnswer max := by
  obtain ⟨h, hs⟩ := Option.isSome_iff_exists.mp hb
  have : (s.afterRequest max).src = some h := by simpa using hs
  rw [State.boundSource_of _ h this, State.boundSource_of s h hs]
  simp [State.afterRequest, hs, Sources.read_write_same _ _ _ hw]

theorem State.afterRequest_others (max : Nat) (s : State) (h : Nat) (hh : s.src ≠ some h) :
    (s.afterRequest max).sources.read h = s.sources.read h := by
  unfold State.afterRequest
  split
  · rfl
  · rename_i k hk
    exact Sources.read_write_other _ _ _ _ (fun e => hh (by rw [hk, e]))

theorem State.afterRequest_wf (max : Nat) (s : State) (hw : s.sources.wf = true) :
    (s.afterRequest max).sources.wf = true := by
  unfold State.afterRequest
  split
  · exact hw
  · exact Sources.write_wf _ _ _ hw

theorem State.afterRequest_fetched (max : Nat) (s : State) (hb : s.src.isSome = true) :
    (s.afterRequest max).fetched = s.fetched + s.boundSource.pick max := by
  obtain ⟨h, hs⟩ := Option.isSome_iff_exists.mp hb
  simp [State.afterRequest, hs, State.boundSource]

theorem State.afterRequest_requests (max : Nat) (s : State) (hb : s.src.isSome = true) :
    (s.afterRequest max).requests = s.requests ++ [⟨max, s.boundSource.pick max⟩] := by
  obtain ⟨h, hs⟩ := Option.isSome_iff_exists.mp hb
  simp [State.afterRequest, hs, State.boundSource]

/-- A request that returns 0 bytes removes nothing (R49). -/
theorem State.afterRequest_of_nil (max : Nat) (s : State) (hw : s.sources.wf = true) (hb : s.src.isSome = true)
    (hs : s.boundSource.supply = []) :
    s.afterRequest max = { s with requests := s.requests ++ [⟨max, 0⟩] } := by
  obtain ⟨h, hh⟩ := Option.isSome_iff_exists.mp hb
  rw [State.boundSource_of s h hh] at hs
  have ha : (s.sources.read h).answer max = [] := by simp [Source.answer, hs]
  simp [State.afterRequest, hh, ha, Source.afterAnswer_of_nil _ _ hs, Sources.write_read_self _ _ hw]

/-! ## The pending sequence (R25) -/

theorem State.cellsBelow_congr (s t : State) (n : Nat) (h : ∀ i, i < n → t.cell i = s.cell i) :
    t.cellsBelow n = s.cellsBelow n := by
  induction n with
  | zero => rfl
  | succ n ih =>
    simp only [State.cellsBelow]
    rw [h n (by omega), ih (fun i hi => h i (by omega))]

@[simp] theorem State.cellsBelow_length (s : State) (n : Nat) : (s.cellsBelow n).length = n := by
  induction n with
  | zero => rfl
  | succ n ih => simp [State.cellsBelow, ih]

@[simp] theorem State.pending_length (s : State) : s.pending.length = s.nbits := by
  simp [State.pending]

theorem State.pending_congr (s t : State) (h1 : t.buf = s.buf) (h2 : t.nbits = s.nbits) : t.pending = s.pending := by
  rw [State.pending, State.pending, h2]
  exact State.cellsBelow_congr s t _ (fun i _ => State.cell_of_buf s t i h1)

/-- PopBit removes the head of the pending sequence (R92). -/
theorem State.pending_dropTop (s : State) (h : s.nbits ≠ 0) : s.pending = s.topBit :: s.dropTop.pending := by
  obtain ⟨n, hn⟩ := Nat.exists_eq_succ_of_ne_zero h
  have h1 : s.pending = s.cell n :: s.cellsBelow n := by simp [State.pending, hn, State.cellsBelow]
  have h2 : s.dropTop.pending = s.cellsBelow n := by
    simp only [State.pending, dropTop_nbits, hn, Nat.succ_sub_one]
    exact State.cellsBelow_congr s s.dropTop n (fun i _ => State.cell_of_buf s s.dropTop i rfl)
  simp [h1, h2, State.topBit, hn]

/-- A cell of a buffer that starts with the reversal of a bit list. -/
theorem State.cell_reverse (s : State) (bits tail : List Bool) (hb : s.buf = bits.reverse ++ tail) (i : Nat)
    (hi : i < bits.length) : s.cell i = bits[bits.length - 1 - i] := by
  simp [State.cell, hb, List.getD_eq_getElem?_getD, List.getElem?_append_left, hi]

theorem State.cellsBelow_reverse (s : State) (bits tail : List Bool) (hb : s.buf = bits.reverse ++ tail) (m : Nat)
    (hm : m ≤ bits.length) : s.cellsBelow m = bits.drop (bits.length - m) := by
  induction m with
  | zero => simp [State.cellsBelow]
  | succ m ih =>
    have hc := State.cell_reverse s bits tail hb m (by omega)
    rw [State.cellsBelow, ih (by omega), hc]
    have he : bits.length - (m + 1) = bits.length - 1 - m := by omega
    have hd := List.drop_eq_getElem_cons (l := bits) (i := bits.length - (m + 1)) (by omega)
    rw [hd]
    simp only [he]
    congr 2; omega

/-- A refill sets the pending sequence to the fetched bits in file order (R92). -/
theorem State.pending_loadBuffer (s : State) (bytes : List Byte) : (s.loadBuffer bytes).pending = bitSeq bytes := by
  rw [State.pending, State.cellsBelow_reverse _ (bitSeq bytes) (s.buf.drop (8 * bytes.length)) rfl]
  · simp
  · simp

/-! ## What reading keeps -/

/-- What no read command changes before it responds. -/
structure ReadKeeps (s t : State) : Prop where
  cfg : t.cfg = s.cfg
  phase : t.phase = s.phase
  src : t.src = s.src
  rsp : t.rsp = s.rsp
  inFlight : t.inFlight = s.inFlight
  srcIn : t.srcIn = s.srcIn
  commands : t.commands = s.commands
  inputs : t.inputs = s.inputs
  responses : t.responses = s.responses
  mood : t.boundSource.mood = s.boundSource.mood
  others : ∀ h, s.src ≠ some h → t.sources.read h = s.sources.read h

theorem ReadKeeps.refl (s : State) : ReadKeeps s s :=
  ⟨rfl, rfl, rfl, rfl, rfl, rfl, rfl, rfl, rfl, rfl, fun _ _ => rfl⟩

theorem ReadKeeps.trans {s t u : State} (h : ReadKeeps s t) (k : ReadKeeps t u) : ReadKeeps s u :=
  ⟨k.cfg.trans h.cfg, k.phase.trans h.phase, k.src.trans h.src, k.rsp.trans h.rsp, k.inFlight.trans h.inFlight,
    k.srcIn.trans h.srcIn, k.commands.trans h.commands, k.inputs.trans h.inputs, k.responses.trans h.responses,
    k.mood.trans h.mood, fun a ha => (k.others a (by rw [h.src]; exact ha)).trans (h.others a ha)⟩

theorem ReadKeeps.canAnswer {s t : State} (h : ReadKeeps s t) : t.canAnswer = s.canAnswer :=
  State.canAnswer_congr s t h.src h.mood

/-! ## PopBit (R90) -/

/-- What a PopBit that delivers a bit leaves: one bit less of the stream, at most one request, and that only on an empty
buffer (R93). -/
structure Popped (s : State) (b : Bool) (t : State) : Prop where
  keeps : ReadKeeps s t
  sound : t.Sound
  deliverable : s.deliverable = b :: t.deliverable
  stream : s.stream = b :: t.stream
  position : t.position = s.position + 1
  source : (s.nbits ≠ 0 ∧ t = s.dropTop) ∨
    (s.nbits = 0 ∧ s.canAnswer = true ∧ ∃ n, 1 ≤ n ∧ n ≤ s.cfg.capBytes ∧ t.nbits = 8 * n - 1 ∧
      t.requests = s.requests ++ [⟨s.cfg.capBytes, n⟩] ∧ t.fetched = s.fetched + n ∧
      t.boundSource.remaining = s.boundSource.remaining.drop n)

/-- What a PopBit that fails leaves: everything but the record of the request (R96). -/
structure Exhausted (s t : State) : Prop where
  keeps : ReadKeeps s t
  empty : s.nbits = 0
  nothingLeft : s.boundSource.supply = []
  unchanged : t = { s with requests := s.requests ++ [⟨s.cfg.capBytes, 0⟩] }

theorem State.Sound.capBytes_pos {s : State} (h : s.Sound) : 0 < s.cfg.capBytes := by
  have := h.legalCapacity
  simp [Config.wellFormed] at this
  unfold Config.capBytes; omega

theorem State.Sound.capBits_eq {s : State} (h : s.Sound) : s.cfg.capBits = 8 * s.cfg.capBytes := by
  have := h.legalCapacity
  simp [Config.wellFormed] at this
  unfold Config.capBytes; omega

theorem State.Sound.isBound {s : State} (h : s.Sound) (hp : s.phase ≠ .closed) : s.src.isSome = true :=
  h.boundExactly.mpr hp

theorem popBit_of_bits (s : State) (hn : s.nbits ≠ 0) : popBit s = .bit s.topBit s.dropTop := by
  simp [popBit, hn]

theorem State.Sound.dropTop {s : State} (h : s.Sound) : s.dropTop.Sound := by
  have h1 := h.countInRange; have h2 := h.cellsWritten; have h3 := h.fetchedCovers
  refine ⟨h.legalCapacity, ?_, ?_, h.cellsFit, ?_, h.boundExactly, h.sourcesCanonical, ?_⟩
  · simp; omega
  · simp; omega
  · intro hp; simp [h.closedIsEmpty (by simpa using hp)]
  · simp; omega

theorem popped_of_bits (s : State) (h : s.Sound) (hn : s.nbits ≠ 0) : Popped s s.topBit s.dropTop := by
  have hsrc : s.dropTop.boundSource = s.boundSource := State.boundSource_congr s s.dropTop rfl rfl
  refine ⟨⟨rfl, rfl, rfl, rfl, rfl, rfl, rfl, rfl, rfl, ?_, fun _ _ => rfl⟩, h.dropTop, ?_, ?_, ?_, .inl ⟨hn, rfl⟩⟩
  · rw [hsrc]
  · simp [State.deliverable, hsrc, State.pending_dropTop s hn]
  · simp [State.stream, hsrc, State.pending_dropTop s hn]
  · have := h.fetchedCovers
    simp [State.position]; omega

theorem popBit_of_stalled (s : State) (hn : s.nbits = 0) (hc : s.canAnswer = false) : popBit s = .waiting := by
  simp [popBit, hn, refill, srcRead, hc]

theorem popBit_of_exhausted (s : State) (h : s.Sound) (hn : s.nbits = 0) (hc : s.canAnswer = true)
    (hs : s.boundSource.supply = []) :
    popBit s = .fail (s.afterRequest s.cfg.capBytes) ∧ Exhausted s (s.afterRequest s.cfg.capBytes) := by
  have ha : s.boundSource.answer s.cfg.capBytes = [] := (Source.answer_eq_nil _ _ h.capBytes_pos).mpr hs
  have hb : s.src.isSome = true := by
    simp only [State.canAnswer, Bool.and_eq_true] at hc; exact hc.1
  have he := State.afterRequest_of_nil s.cfg.capBytes s h.sourcesCanonical hb hs
  refine ⟨?_, ⟨?_, hn, hs, he⟩⟩
  · simp [popBit, hn, refill, srcRead, hc, ha]
  · rw [he]
    exact ⟨rfl, rfl, rfl, rfl, rfl, rfl, rfl, rfl, rfl, rfl, fun _ _ => rfl⟩

theorem popBit_of_refill (s : State) (h : s.Sound) (hn : s.nbits = 0) (hc : s.canAnswer = true)
    (hs : s.boundSource.supply ≠ []) : ∃ b t, popBit s = .bit b t ∧ Popped s b t := by
  have hb : s.src.isSome = true := by
    simp only [State.canAnswer, Bool.and_eq_true] at hc; exact hc.1
  have hne : s.boundSource.answer s.cfg.capBytes ≠ [] := fun e => hs ((Source.answer_eq_nil _ _ h.capBytes_pos).mp e)
  have hlen := Source.answer_length s.boundSource s.cfg.capBytes
  have hle := s.boundSource.pick_le s.cfg.capBytes
  have hpos := s.boundSource.pick_pos s.cfg.capBytes hs h.capBytes_pos
  have hpop : popBit s = .bit
      ((s.afterRequest s.cfg.capBytes).loadBuffer (s.boundSource.answer s.cfg.capBytes)).topBit
      ((s.afterRequest s.cfg.capBytes).loadBuffer (s.boundSource.answer s.cfg.capBytes)).dropTop := by
    cases ha : s.boundSource.answer s.cfg.capBytes with
    | nil => exact absurd ha hne
    | cons b bs => simp [popBit, hn, refill, srcRead, hc, ha]
  set bytes := s.boundSource.answer s.cfg.capBytes with hbytes
  set u := (s.afterRequest s.cfg.capBytes).loadBuffer bytes with hu
  have hcap := h.capBits_eq
  have hcfg : u.cfg = s.cfg := by simp [hu]
  have hnb : u.nbits = 8 * bytes.length := by simp [hu]
  have hf : u.fetched = s.fetched + bytes.length := by
    rw [hlen, hu, loadBuffer_fetched, State.afterRequest_fetched _ _ hb]
  have hub : u.boundSource = s.boundSource.afterAnswer s.cfg.capBytes := by
    rw [← State.afterRequest_boundSource _ _ hb h.sourcesCanonical]
    exact State.boundSource_congr _ _ rfl rfl
  have husound : u.Sound := by
    have hcells := h.cellsFit
    refine ⟨by rw [hcfg]; exact h.legalCapacity, ?_, ?_, ?_, ?_, ?_, ?_, ?_⟩
    · rw [hnb, hcfg, hlen, hcap]; omega
    · simp [hu]
    · simp only [hu, loadBuffer_buf, loadBuffer_cfg, afterRequest_cfg, afterRequest_buf, List.length_append,
        List.length_reverse, bitSeq_length, List.length_drop]
      rw [hlen]; omega
    · intro hp
      have hp' : s.phase = .closed := by simpa [hu] using hp
      exact absurd hp' (h.boundExactly.mp hb)
    · simpa [hu] using h.boundExactly
    · simpa [hu] using State.afterRequest_wf s.cfg.capBytes s h.sourcesCanonical
    · rw [hnb, hf]; omega
  have hun : u.nbits ≠ 0 := by rw [hnb, hlen]; omega
  have hp := popped_of_bits u husound hun
  have hpend : s.pending = [] := by
    rw [← List.length_eq_zero_iff, State.pending_length, hn]
  have hdel : u.deliverable = s.deliverable := by
    rw [State.deliverable, State.deliverable, hub, hpend, hu, State.pending_loadBuffer, ← bitSeq_append,
      Source.answer_append_supply]
    simp
  have hstr : u.stream = s.stream := by
    rw [State.stream, State.stream, hub, hpend, hu, State.pending_loadBuffer, ← bitSeq_append,
      Source.answer_append_remaining]
    simp
  have hpo : u.position = s.position := by
    rw [State.position, State.position, hf, hnb, hn]; omega
  have hkeep : ReadKeeps s u := by
    refine ⟨hcfg, by simp [hu], by simp [hu], by simp [hu], by simp [hu], by simp [hu], by simp [hu], by simp [hu],
      by simp [hu], ?_, ?_⟩
    · rw [hub]; simp
    · intro a ha
      simpa [hu] using State.afterRequest_others s.cfg.capBytes s a ha
  refine ⟨_, _, hpop, hkeep.trans hp.keeps, hp.sound, ?_, ?_, ?_, .inr ⟨hn, hc, bytes.length, ?_, ?_, ?_, ?_, ?_, ?_⟩⟩
  · rw [← hdel]; exact hp.deliverable
  · rw [← hstr]; exact hp.stream
  · rw [← hpo]; exact hp.position
  · rw [hlen]; omega
  · rw [hlen]; omega
  · simp [hnb]
  · rw [hlen]; simp [hu, State.afterRequest_requests _ _ hb]
  · exact hf
  · rw [State.boundSource_congr u u.dropTop rfl rfl, hub, Source.afterAnswer_remaining, hlen]

/-- Everything PopBit can do with a bound source (R90): deliver a bit, fail, or wait for the source. -/
theorem popBit_cases (s : State) (h : s.Sound) :
    (∃ b t, popBit s = .bit b t ∧ Popped s b t) ∨
    (∃ t, popBit s = .fail t ∧ Exhausted s t ∧ s.canAnswer = true) ∨
    (popBit s = .waiting ∧ s.nbits = 0 ∧ s.canAnswer = false) := by
  by_cases hn : s.nbits = 0
  · cases hc : s.canAnswer with
    | false => exact .inr (.inr ⟨popBit_of_stalled s hn hc, hn, rfl⟩)
    | true =>
      by_cases hs : s.boundSource.supply = []
      · have := popBit_of_exhausted s h hn hc hs
        exact .inr (.inl ⟨_, this.1, this.2, rfl⟩)
      · exact .inl (popBit_of_refill s h hn hc hs)
  · exact .inl ⟨_, _, popBit_of_bits s hn, popped_of_bits s h hn⟩

end Sys2Proof.Machine
end

