-- ==== Sys2Proof/Laws/ReadCommands.lean ====
section
/-! SUPPORT. What the bit loop of READ_BYTE and the two read commands can do, said once (R94, R95, R96). -/

namespace Sys2Proof.Machine

/-- READ_BYTE's accumulator after some bits (R94, R98). -/
def accumulate (acc : Byte) (bits : List Bool) : Byte := bits.foldl shiftIn acc

@[simp] theorem accumulate_nil (acc : Byte) : accumulate acc [] = acc := rfl

@[simp] theorem accumulate_cons (acc : Byte) (b : Bool) (bits : List Bool) :
    accumulate acc (b :: bits) = accumulate (shiftIn acc b) bits := rfl

theorem accumulate_append (acc : Byte) (l m : List Bool) :
    accumulate acc (l ++ m) = accumulate (accumulate acc l) m := by
  simp [accumulate]

/-- While the accumulator holds `k` bits it is below `2^k`, and no set bit is shifted out (R98). -/
theorem accumulate_lt (bits : List Bool) (acc : Byte) (k : Nat) (hk : k + bits.length ≤ 8) (ha : acc.toNat < 2 ^ k) :
    (accumulate acc bits).toNat < 2 ^ (k + bits.length) := by
  induction bits generalizing acc k with
  | nil => simpa using ha
  | cons b bits ih =>
    simp only [List.length_cons] at hk
    have h1 : acc.toNat < 128 :=
      Nat.lt_of_lt_of_le ha (show 2 ^ k ≤ 2 ^ 7 from Nat.pow_le_pow_right (by omega) (by omega))
    have h2 := shiftIn_toNat acc b h1
    have h3 : b.toNat ≤ 1 := Bool.toNat_le b
    have h4 : (shiftIn acc b).toNat < 2 ^ (k + 1) := by rw [h2, Nat.pow_succ]; omega
    have := ih (shiftIn acc b) (k + 1) (by omega) h4
    rw [accumulate_cons, List.length_cons]
    rwa [show k + (bits.length + 1) = k + 1 + bits.length by omega]

/-- The byte of eight bits is their value, the first bit in bit 7 (R46). -/
theorem accumulate_eight (bits : List Bool) (h : bits.length = 8) : (accumulate 0 bits).toNat = byteValue bits := by
  match bits, h with
  | [a, b, c, d, e, f, g, i], _ =>
    revert a b c d e f g i
    decide

/-- What taking `bits` from the stream leaves (R94): the buffer just shorter, or, where it ran out, one refill. -/
structure Took (s : State) (bits : List Bool) (t : State) : Prop where
  keeps : ReadKeeps s t
  sound : t.Sound
  deliverable : s.deliverable = bits ++ t.deliverable
  stream : s.stream = bits ++ t.stream
  position : t.position = s.position + bits.length
  source : (bits.length ≤ s.nbits ∧ t = { s with nbits := s.nbits - bits.length }) ∨
    (s.nbits < bits.length ∧ s.canAnswer = true ∧ ∃ n, 1 ≤ n ∧ n ≤ s.cfg.capBytes ∧ t.nbits = 8 * n - (bits.length - s.nbits) ∧
      t.requests = s.requests ++ [⟨s.cfg.capBytes, n⟩] ∧ t.fetched = s.fetched + n ∧
      t.boundSource.remaining = s.boundSource.remaining.drop n)

theorem Took.none (s : State) (h : s.Sound) : Took s [] s :=
  ⟨ReadKeeps.refl s, h, rfl, rfl, rfl, .inl ⟨Nat.zero_le _, rfl⟩⟩

theorem Took.cons {s t u : State} {b : Bool} {bits : List Bool} (hp : Popped s b t) (ht : Took t bits u)
    (hl : bits.length ≤ 7) : Took s (b :: bits) u := by
  refine ⟨hp.keeps.trans ht.keeps, ht.sound, by rw [hp.deliverable, ht.deliverable, List.cons_append],
    by rw [hp.stream, ht.stream, List.cons_append],
    by rw [ht.position, hp.position, List.length_cons]; omega, ?_⟩
  rcases hp.source with ⟨hn, rfl⟩ | ⟨hn, hc, n, h1, h2, h3, h4, hf, hr⟩
  · rcases ht.source with ⟨h5, rfl⟩ | ⟨h5, hc, n, h6, h7, h8, h9, hg, hr⟩
    · left
      simp only [dropTop_nbits] at h5
      refine ⟨by rw [List.length_cons]; omega, ?_⟩
      simp only [State.dropTop, List.length_cons]
      rw [show s.nbits - 1 - bits.length = s.nbits - (bits.length + 1) by omega]
    · right
      simp only [dropTop_nbits, dropTop_cfg, dropTop_requests] at h5 h7 h8 h9
      exact ⟨by rw [List.length_cons]; omega, by rw [← hp.keeps.canAnswer]; exact hc, n, h6, h7, by rw [h8, List.length_cons]; omega, h9, hg, hr⟩
  · right
    rcases ht.source with ⟨h5, rfl⟩ | ⟨h5, _, m, h6, h7, h8, h9⟩
    · refine ⟨by rw [List.length_cons]; omega, hc, n, h1, h2, ?_, h4, hf, hr⟩
      rw [List.length_cons]; show t.nbits - bits.length = _; omega
    · omega

/-- Everything the bit loop can do (R94, R96). -/
theorem takeBits_cases (left : Nat) (acc : Byte) (s : State) (h : s.Sound) (hl : left ≤ 8) :
    (∃ bits t, takeBits left acc s = .done (accumulate acc bits) t ∧ bits.length = left ∧ Took s bits t) ∨
    (∃ bits u t, takeBits left acc s = .ended t ∧ bits.length < left ∧ Took s bits u ∧ Exhausted u t ∧
      s.canAnswer = true) ∨
    (∃ bits left' t, takeBits left acc s = .waiting left' (accumulate acc bits) t ∧ bits.length + left' = left ∧
      0 < left' ∧ Took s bits t ∧ t.nbits = 0 ∧ s.canAnswer = false) := by
  induction left generalizing acc s with
  | zero => exact .inl ⟨[], s, rfl, rfl, Took.none s h⟩
  | succ left ih =>
    rcases popBit_cases s h with ⟨b, t, hp, hpop⟩ | ⟨t, hp, hex, hc⟩ | ⟨hp, hn, hc⟩
    · rcases ih (shiftIn acc b) t hpop.sound (by omega) with
        ⟨bits, u, he, hlen, hk⟩ | ⟨bits, v, u, he, hlen, hk, hx, hc⟩ | ⟨bits, left', u, he, hlen, hpos, hk, hu, hc⟩
      · refine .inl ⟨b :: bits, u, ?_, by simp [hlen], Took.cons hpop hk (by omega)⟩
        simp [takeBits, hp, he]
      · refine .inr (.inl ⟨b :: bits, v, u, ?_, by simp; omega, Took.cons hpop hk (by omega), hx, ?_⟩)
        · simp [takeBits, hp, he]
        · rw [← hpop.keeps.canAnswer]; exact hc
      · refine .inr (.inr ⟨b :: bits, left', u, ?_, by simp; omega, hpos, Took.cons hpop hk (by omega), hu, ?_⟩)
        · simp [takeBits, hp, he]
        · rw [← hpop.keeps.canAnswer]; exact hc
    · refine .inr (.inl ⟨[], s, t, ?_, by simp, Took.none s h, hex, hc⟩)
      simp [takeBits, hp]
    · refine .inr (.inr ⟨[], left + 1, s, ?_, by simp, by omega, Took.none s h, hn, hc⟩)
      simp [takeBits, hp]

/-- A loop that ends early has only emptied the buffer (R96): no refill came before the failing one. -/
theorem Took.of_exhausted {s u t : State} {bits : List Bool} (hk : Took s bits u) (hx : Exhausted u t)
    (hl : bits.length ≤ 7) :
    bits.length = s.nbits ∧ s.boundSource.supply = [] ∧
      t = { s with nbits := 0, requests := s.requests ++ [⟨s.cfg.capBytes, 0⟩] } := by
  have h0 := hx.empty
  rcases hk.source with ⟨h1, rfl⟩ | ⟨h1, _, n, h2, h3, h4, _⟩
  · have h2 : bits.length = s.nbits := by
      have : s.nbits - bits.length = 0 := h0
      omega
    refine ⟨h2, hx.nothingLeft, ?_⟩
    rw [hx.unchanged]
    simp [h2]
  · omega

/-- What READ_BYTE, with `left` bits still wanted, leaves (R94, R96). -/
theorem runReadByte_cases (left : Nat) (acc : Byte) (s : State) (h : s.Sound) (hl : left ≤ 8) :
    (∃ bits t, runReadByte left acc s = t.respond .ok (accumulate acc bits) ∧ bits.length = left ∧ Took s bits t) ∨
    (runReadByte left acc s =
        State.raise .endOfData { s with nbits := 0, requests := s.requests ++ [⟨s.cfg.capBytes, 0⟩] } ∧
      s.nbits < left ∧ s.boundSource.supply = [] ∧ s.canAnswer = true) ∨
    (∃ bits left', runReadByte left acc s =
        { s with nbits := 0 }.park (.readByte left' (accumulate acc bits)) ∧
      bits = s.pending ∧ s.nbits + left' = left ∧ 0 < left' ∧ s.canAnswer = false) := by
  rcases takeBits_cases left acc s h hl with
    ⟨bits, t, he, hlen, hk⟩ | ⟨bits, u, t, he, hlen, hk, hx, hc⟩ | ⟨bits, left', t, he, hlen, hpos, hk, hn, hc⟩
  · exact .inl ⟨bits, t, by simp [runReadByte, he], hlen, hk⟩
  · obtain ⟨h1, h2, h3⟩ := hk.of_exhausted hx (by omega)
    exact .inr (.inl ⟨by simp [runReadByte, he, h3], by omega, h2, hc⟩)
  · rcases hk.source with ⟨h1, h2⟩ | ⟨h1, _, n, h3, _, h4, _⟩
    · have h5 : bits.length = s.nbits := by
        have : t.nbits = s.nbits - bits.length := by rw [h2]
        omega
      have h6 : bits = s.pending := by
        have hd := hk.deliverable
        have ht : t.boundSource = s.boundSource := by rw [h2]; exact State.boundSource_congr _ _ rfl rfl
        have htp : t.pending = [] := by rw [← List.length_eq_zero_iff, State.pending_length, hn]
        rw [State.deliverable, State.deliverable, ht, htp, List.nil_append] at hd
        exact (List.append_cancel_right hd).symm
      refine .inr (.inr ⟨bits, left', ?_, h6, by omega, hpos, hc⟩)
      have : t = { s with nbits := 0 } := by rw [h2, h5]; simp
      simp [runReadByte, he, this]
    · omega

/-- What READ_BIT in READ leaves (R95). -/
theorem runReadBit_cases (s : State) (h : s.Sound) :
    (∃ b t, runReadBit s = t.respond .ok (zext8 b) ∧ Popped s b t) ∨
    (runReadBit s = State.raise .endOfData { s with requests := s.requests ++ [⟨s.cfg.capBytes, 0⟩] } ∧
      s.nbits = 0 ∧ s.boundSource.supply = [] ∧ s.canAnswer = true) ∨
    (runReadBit s = s.park .readBit ∧ s.nbits = 0 ∧ s.canAnswer = false) := by
  rcases popBit_cases s h with ⟨b, t, hp, hpop⟩ | ⟨t, hp, hex, hc⟩ | ⟨hp, hn, hc⟩
  · exact .inl ⟨b, t, by simp [runReadBit, hp], hpop⟩
  · exact .inr (.inl ⟨by simp [runReadBit, hp, hex.unchanged], hex.empty, hex.nothingLeft, hc⟩)
  · exact .inr (.inr ⟨by simp [runReadBit, hp], hn, hc⟩)

end Sys2Proof.Machine
end

