-- ==== Sys2Proof/Laws/Step.lean ====
section
/-! SUPPORT. What a command word, an outside input and a step can do, said once. -/

namespace Sys2Proof.Machine

theorem execReadBit_read (s : State) (hp : s.phase = .read) : execReadBit s = .next (runReadBit s) := by
  simp [execReadBit, hp]

theorem execReadByte_read (s : State) (hp : s.phase = .read) : execReadByte s = .next (runReadByte 8 0 s) := by
  simp [execReadByte, hp]

/-- Everything a command word can lead to (R149): a misuse, IOUnavailable, a binding, a release, or a read in READ. -/
theorem runWord_cases (w : Word) (s : State) :
    (runWord w s = .next s.misuse ∧ decode w ≠ .command .close ∧
      (s.phase = .read → decode w ≠ .command .readBit ∧ decode w ≠ .command .readByte) ∧
      (s.phase = .closed → decode w ≠ .command .openSource)) ∨
    (runWord w s = .next (s.raise .ioUnavailable) ∧ decode w = .command .openSource ∧ s.phase = .closed ∧
      s.srcIn = none) ∨
    (∃ h, runWord w s = .next ((s.bindTo h).respond .ok 0) ∧ decode w = .command .openSource ∧ s.phase = .closed ∧
      s.srcIn = some h) ∨
    (runWord w s = .next (s.release.respond .ok 0) ∧ decode w = .command .close) ∨
    (runWord w s = .next (runReadBit s) ∧ decode w = .command .readBit ∧ s.phase = .read) ∨
    (runWord w s = .next (runReadByte 8 0 s) ∧ decode w = .command .readByte ∧ s.phase = .read) := by
  unfold runWord
  cases hd : decode w with
  | reserved => simp [execReserved]
  | command i =>
    cases i with
    | openSource =>
      by_cases hp : s.phase = .closed
      · cases hs : s.srcIn <;> simp [exec, execOpenSource, hp, sourceOperand, hs]
      · simp [exec, execOpenSource, hp]
    | readBit => by_cases hp : s.phase = .read <;> simp [exec, execReadBit, hp]
    | readByte => by_cases hp : s.phase = .read <;> simp [exec, execReadByte, hp]
    | writeBit flag => simp [exec, execWriteBit]
    | writeByte b => simp [exec, execWriteByte]
    | close => simp [exec, execClose]

/-- A command word is never a fault or a refusal. -/
theorem runWord_next (w : Word) (s : State) : ∃ t, runWord w s = .next t := by
  rcases runWord_cases w s with h | h | ⟨_, h⟩ | h | h | h
  all_goals exact ⟨_, h.1⟩

/-- Everything an outside input can lead to. -/
theorem applyInput_cases (e : Input) (s t : State) (h : applyInput e s = .next t) :
    (∃ c, e = .command c ∧ t = s.send c) ∨
    (∃ lost, e = .reset lost ∧ t = s.resetBlock lost) ∨
    (∃ c lost, e = .resetDuring c lost ∧ t = (s.interruptedIn c).resetBlock lost) ∨
    (∃ k x, ((∃ y, e = .setSource k y ∧ x = s.sourceSet k y) ∨
        (∃ b, e = .setStalled k b ∧
          x = { s.sources.read k with mood := { (s.sources.read k).mood with stalled := b } }) ∨
        (e = .readError k ∧ x = { s.sources.read k with mood := { (s.sources.read k).mood with failed := true } })) ∧
      (s.src = some k → x.remaining = (s.sources.read k).remaining) ∧
      t = { s with sources := s.sources.write k x }) := by
  cases e with
  | command c => simp only [applyInput, Host.Outcome.next.injEq] at h; exact .inl ⟨c, rfl, h.symm⟩
  | reset lost => simp only [applyInput, Host.Outcome.next.injEq] at h; exact .inr (.inl ⟨lost, rfl, h.symm⟩)
  | resetDuring c lost =>
    simp only [applyInput, Host.Outcome.next.injEq] at h; exact .inr (.inr (.inl ⟨c, lost, rfl, h.symm⟩))
  | setSource k y =>
    simp only [applyInput, setSource] at h
    split at h
    · cases h
    · rename_i hk
      simp only [Host.Outcome.next.injEq] at h
      refine .inr (.inr (.inr ⟨k, _, .inl ⟨y, rfl, rfl⟩, fun hs => ?_, h.symm⟩))
      rw [sourceSet_remaining]
      by_contra hne
      exact hk ⟨hs, hne⟩
  | setStalled k b =>
    simp only [applyInput, Host.Outcome.next.injEq] at h
    exact .inr (.inr (.inr ⟨k, _, .inr (.inl ⟨b, rfl, rfl⟩), fun _ => rfl, h.symm⟩))
  | readError k =>
    simp only [applyInput, Host.Outcome.next.injEq] at h
    exact .inr (.inr (.inr ⟨k, _, .inr (.inr ⟨rfl, rfl⟩), fun _ => rfl, h.symm⟩))

/-- The outside world's turn: nothing happens, or its next doing. -/
theorem outsideMove_cases (s t : State) (h : outsideMove s = .next t) :
    (s.inputs = [] ∧ t = s) ∨ (∃ e rest, s.inputs = e :: rest ∧ applyInput e { s with inputs := rest } = .next t) := by
  unfold outsideMove at h
  split at h
  · rename_i hi
    simp only [Host.Outcome.next.injEq] at h
    exact .inl ⟨hi, h.symm⟩
  · rename_i e rest hi
    exact .inr ⟨e, rest, hi, h⟩

theorem step_of_outsideTurn (s : State) (h : s.outsideTurn = true) : step s = outsideMove s := by
  simp only [step, advance]
  unfold State.outsideTurn at h
  split
  · rename_i op hf
    have hc : s.canAnswer = false := by simpa [hf] using h
    simp [hc]
  · rename_i hf
    split
    · rename_i c rest hc
      simp [hf, hc] at h
    · rfl

/-- Everything a step can do: go on with a waiting command, run the next word, or let the outside world move. -/
theorem step_cases (s t : State) (h : step s = .next t) :
    (∃ op, s.inFlight = some op ∧ s.canAnswer = true ∧ t = resume op s) ∨
    (∃ c rest, s.inFlight = none ∧ s.commands = c :: rest ∧ runWord c.word (s.accept c rest) = .next t) ∨
    (s.outsideTurn = true ∧ s.inputs = [] ∧ t = s) ∨
    (∃ e rest, s.outsideTurn = true ∧ s.inputs = e :: rest ∧ applyInput e { s with inputs := rest } = .next t) := by
  cases ho : s.outsideTurn with
  | true =>
    rw [step_of_outsideTurn s ho] at h
    rcases outsideMove_cases s t h with ⟨h1, h2⟩ | ⟨e, rest, h1, h2⟩
    · exact .inr (.inr (.inl ⟨rfl, h1, h2⟩))
    · exact .inr (.inr (.inr ⟨e, rest, rfl, h1, h2⟩))
  | false =>
    simp only [step, advance] at h
    unfold State.outsideTurn at ho
    split at h
    · rename_i op hf
      have hc : s.canAnswer = true := by simpa [hf] using ho
      simp only [hc, if_true, Host.Outcome.next.injEq] at h
      exact .inl ⟨op, hf, hc, h.symm⟩
    · rename_i hf
      split at h
      · rename_i c rest hc
        exact .inr (.inl ⟨c, rest, hf, hc, h⟩)
      · rename_i hc
        simp [hf, hc] at ho

end Sys2Proof.Machine
end

