-- ==== Sys2Proof/Laws/AnyState.lean ====
section
/-! SUPPORT. What reading keeps in ANY state, reachable or not: no invariant is assumed here. -/

namespace Sys2Proof.Machine

/-- The fields no internal operation of reading writes. -/
structure Untouched (s t : State) : Prop where
  cfg : t.cfg = s.cfg
  phase : t.phase = s.phase
  src : t.src = s.src
  rsp : t.rsp = s.rsp
  inFlight : t.inFlight = s.inFlight
  srcIn : t.srcIn = s.srcIn
  commands : t.commands = s.commands
  inputs : t.inputs = s.inputs
  responses : t.responses = s.responses

theorem Untouched.refl (s : State) : Untouched s s := ⟨rfl, rfl, rfl, rfl, rfl, rfl, rfl, rfl, rfl⟩

theorem Untouched.trans {s t u : State} (h : Untouched s t) (k : Untouched t u) : Untouched s u :=
  ⟨k.cfg.trans h.cfg, k.phase.trans h.phase, k.src.trans h.src, k.rsp.trans h.rsp, k.inFlight.trans h.inFlight,
    k.srcIn.trans h.srcIn, k.commands.trans h.commands, k.inputs.trans h.inputs, k.responses.trans h.responses⟩

theorem untouched_afterRequest (max : Nat) (s : State) : Untouched s (s.afterRequest max) := by
  constructor <;> simp

theorem untouched_dropTop (s : State) : Untouched s s.dropTop := by constructor <;> simp

theorem untouched_loadBuffer (bytes : List Byte) (s : State) : Untouched s (s.loadBuffer bytes) := by
  constructor <;> simp

/-- A refill that fills or fails touches none of these fields. -/
theorem refill_untouched (s t : State) (h : refill s = .filled t ∨ refill s = .fail t) : Untouched s t := by
  unfold refill srcRead at h
  cases hc : s.canAnswer
  · simp [hc] at h
  · cases ha : s.boundSource.answer s.cfg.capBytes with
    | nil =>
      simp [hc, ha] at h
      rw [← h]; exact untouched_afterRequest _ s
    | cons b bs =>
      simp [hc, ha] at h
      rw [← h]; exact (untouched_afterRequest _ s).trans (untouched_loadBuffer _ _)

theorem popBit_untouched (s t : State) (h : (∃ b, popBit s = .bit b t) ∨ popBit s = .fail t) : Untouched s t := by
  unfold popBit at h
  split at h
  · cases hr : refill s with
    | filled u =>
      simp [hr] at h
      rw [← h]; exact (refill_untouched s u (.inl hr)).trans (untouched_dropTop u)
    | fail u =>
      simp [hr] at h
      rw [← h]; exact refill_untouched s u (.inr hr)
    | waiting => simp [hr] at h
  · simp at h
    rw [← h]; exact untouched_dropTop s

/-- The state a bit loop ends in. -/
def Got.state : Got → State
  | .done _ t => t
  | .ended t => t
  | .waiting _ _ t => t

theorem takeBits_untouched (left : Nat) (acc : Byte) (s : State) : Untouched s (takeBits left acc s).state := by
  induction left generalizing acc s with
  | zero => exact Untouched.refl s
  | succ left ih =>
    cases hp : popBit s with
    | bit b t =>
      simp only [takeBits, hp]
      exact (popBit_untouched s t (.inl ⟨b, hp⟩)).trans (ih _ _)
    | fail t =>
      simp only [takeBits, hp]
      exact popBit_untouched s t (.inr hp)
    | waiting =>
      simp only [takeBits, hp]
      exact Untouched.refl s

/-- How a read ends, in any state: a legal answer on an untouched state, or waiting. -/
inductive ReadEnds (s : State) : State → Prop where
  | answered (t : State) (st : Status) (d : Byte) (h : Untouched s t)
      (legal : st = .ok ∨ (st = .endOfData ∧ d = 0)) : ReadEnds s (t.respond st d)
  | waits (t : State) (op : InFlight) (h : Untouched s t) : ReadEnds s (t.park op)

theorem runReadByte_ends (left : Nat) (acc : Byte) (s : State) : ReadEnds s (runReadByte left acc s) := by
  have h := takeBits_untouched left acc s
  unfold runReadByte
  cases hb : takeBits left acc s with
  | done v t => rw [hb] at h; exact .answered t .ok v h (.inl rfl)
  | ended t => rw [hb] at h; exact .answered t .endOfData 0 h (.inr ⟨rfl, rfl⟩)
  | waiting l a t => rw [hb] at h; exact .waits t _ h

theorem runReadBit_ends (s : State) : ReadEnds s (runReadBit s) := by
  unfold runReadBit
  cases hp : popBit s with
  | bit b t => exact .answered t .ok (zext8 b) (popBit_untouched s t (.inl ⟨b, hp⟩)) (.inl rfl)
  | fail t => exact .answered t .endOfData 0 (popBit_untouched s t (.inr hp)) (.inr ⟨rfl, rfl⟩)
  | waiting => exact .waits s _ (Untouched.refl s)

theorem resume_ends (op : InFlight) (s : State) : ReadEnds s (resume op s) := by
  cases op with
  | readBit => exact runReadBit_ends s
  | readByte left acc => exact runReadByte_ends left acc s

end Sys2Proof.Machine
end

