-- ==== Sys2Proof/Laws/PerInstr.lean ====
section
/-! SUPPORT. One fact for every command, by constructor: its word is a word of its row of the opcode table (R63). -/

namespace Sys2Proof

/-- The `match` value of a command's row in the opcode table, under the mask 0x00FF (R63). -/
def Laws.TableRow.matchValue : Instr → Word
  | .openSource => 0x0001
  | .readBit => 0x0002
  | .readByte => 0x0003
  | .writeBit _ => 0x0004
  | .writeByte _ => 0x0005
  | .close => 0x0006

/-- The encoded word matches its row under the row's mask, and its reserved field is 0 (R61, R63). -/
def Laws.TableRow.Statement (i : Instr) : Prop :=
  encode i &&& 0x00FF = Laws.TableRow.matchValue i ∧ rsvField (encode i) = 0 ∧ opField (encode i) = opcode i

theorem Laws.TableRow.openSource : Laws.TableRow.Statement .openSource := by
  unfold Laws.TableRow.Statement; decide

theorem Laws.TableRow.readBit : Laws.TableRow.Statement .readBit := by
  unfold Laws.TableRow.Statement; decide

theorem Laws.TableRow.readByte : Laws.TableRow.Statement .readByte := by
  unfold Laws.TableRow.Statement; decide

theorem Laws.TableRow.writeBit (flag : Bool) : Laws.TableRow.Statement (.writeBit flag) := by
  unfold Laws.TableRow.Statement; revert flag; decide

theorem Laws.TableRow.writeByte (b : Byte) : Laws.TableRow.Statement (.writeByte b) := by
  unfold Laws.TableRow.Statement; revert b; decide

theorem Laws.TableRow.close : Laws.TableRow.Statement .close := by
  unfold Laws.TableRow.Statement; decide

end Sys2Proof
end

