-- ==== Sys2Proof/Tests/Slice0.lean ====
section
/-! SUPPORT. Tests: ill-formed terms, words of the spec's encodings, vectors of 95_test_vectors.md (each named in its
comment), and for every obligation with hypotheses a witness that meets them. -/

namespace Sys2Proof.Tests

open Sys2Proof.Machine

/-! ## WellFormed refuses -/

theorem test_line_writeBit_flag_two_is_refused : (AsmLine.writeBit 2).wellFormed = false := by decide
theorem test_line_writeByte_256_is_refused : (AsmLine.writeByte 256).wellFormed = false := by decide
theorem test_line_word_65536_is_refused : (AsmLine.rawWord 65536).wellFormed = false := by decide
theorem test_capacity_12_is_refused : (Config.mk 12).wellFormed = false := by decide
theorem test_capacity_0_is_refused : (Config.mk 0).wellFormed = false := by decide

/-! ## Words written out from R61 and R63: imm8, rsv, op -/

theorem test_decode_open : decode 0b00000000_00000_001 = .command .openSource := by decide
theorem test_decode_readBit : decode 0b00000000_00000_010 = .command .readBit := by decide
theorem test_decode_readByte : decode 0b10000001_00000_011 = .command .readByte := by decide
theorem test_decode_writeBit : decode 0b00000001_00000_100 = .command (.writeBit true) := by decide
/-- V-W5 -/
theorem test_decode_writeBit_upper_bits : decode 0b11111110_00000_100 = .command (.writeBit false) := by decide
/-- V-W1 -/
theorem test_decode_writeByte : decode 0b01000001_00000_101 = .command (.writeByte 0x41) := by decide
/-- V-C4 -/
theorem test_decode_close : decode 0b10101011_00000_110 = .command .close := by decide
/-- V-X2 -/
theorem test_decode_op7 : decode 0b00000000_00000_111 = .reserved := by decide
/-- V-X3: op 3 with rsv 1 is not READ_BYTE -/
theorem test_decode_rsv : decode 0b00000000_00001_011 = .reserved := by decide
theorem test_table_word : decodeTableWord 16 0x4105 = some (.writeByte 0x41) := by decide
theorem test_table_word_reserved : decodeTableWord 16 0x000B = none := by decide
/-- R68 -/
theorem test_assembler :
    assembleProgram [['O', 'P', 'E', 'N', ' ', ';', 'x'], ['W', 'R', 'I', 'T', 'E', '_', 'B', 'Y', 'T', 'E', ' ', '0',
      'x', '4', '1'], [], ['.', 'w', 'o', 'r', 'd', ' ', '1', '1']] =
    .ok [(0x0001, none), (0x4105, none), (0x000B, none)] := by decide
/-- The example of R68 -/
theorem test_assembler_expected :
    parseLine ['R', 'E', 'A', 'D', '_', 'B', 'Y', 'T', 'E', ' ', '-', '>', ' ', 'O', 'K', ',', ' ', '0', 'x', '9', '4'] =
    .ok (some (.readByte, some ⟨.ok, 0x94⟩)) := by decide
theorem test_assembler_refuses : parseLine ['N', 'O', 'P'] = .error .unknownMnemonic := by decide

/-! ## States of the vectors -/

/-- CLOSED, with a ready source under handle 0. -/
def closedState (capBits : Nat) (bytes : List Byte) : State :=
  { State.reset with cfg := ⟨capBits⟩, srcIn := some 0, sources := Sources.put 0 ⟨bytes, [], .ready⟩ [] }

/-- READ, just opened on a ready source. -/
def openState (capBits : Nat) (bytes : List Byte) : State :=
  { closedState capBits bytes with phase := .read, src := some 0 }

/-- READ, with the last `nbits` bits of the fetched bytes pending and a ready source behind. -/
def readingState (capBits nbits : Nat) (fetched bytes : List Byte) : State :=
  { openState capBits bytes with buf := (bitSeq fetched).reverse, nbits := nbits, fetched := fetched.length }

/-- The same, with the source stalled. -/
def stalledState (capBits nbits : Nat) (fetched bytes : List Byte) : State :=
  { readingState capBits nbits fetched bytes with sources := [(0, ⟨bytes, [], ⟨true, false⟩⟩)] }

/-- READ, and a READ_BIT waits on the stalled source. -/
def waitingState : State := { stalledState 16 0 [] [0xA5] with inFlight := some .readBit }

/-- What a test looks at: status, data, phase, bits left, and the source requests. -/
def seen (o : Host.Outcome State Fault Refusal) : Option (Option Response × Phase × Nat × List Request) :=
  match o with
  | .next t => some (t.rsp, t.phase, t.nbits, t.requests)
  | .fault _ => none
  | .refused _ => none

/-- The bytes left in the source under handle 0. -/
def left (o : Host.Outcome State Fault Refusal) : List Byte :=
  match o with
  | .next t => (t.sources.read 0).remaining
  | .fault _ => []
  | .refused _ => []

/-! ## Vectors, one step each -/

/-- V-RB1 -/
theorem test_V_RB1 : seen (exec .readBit (openState 1048576 [0xA5])) =
    some (some ⟨.ok, 0x01⟩, .read, 7, [⟨131072, 1⟩]) := by decide
/-- V-RB2: lazy, no request, the source untouched -/
theorem test_V_RB2 : seen (exec .readBit (readingState 1048576 1 [0x00] [0xFF])) = some (some ⟨.ok, 0x00⟩, .read, 0, []) ∧
    left (exec .readBit (readingState 1048576 1 [0x00] [0xFF])) = [0xFF] := by decide
/-- V-RY7: straddles a refill -/
theorem test_V_RY7 : seen (exec .readByte (readingState 16 7 [0x12, 0x34] [0x56])) =
    some (some ⟨.ok, 0x68⟩, .read, 7, [⟨2, 1⟩]) := by decide
/-- V-RY4: six bits lost -/
theorem test_V_RY4 : seen (exec .readByte (readingState 1048576 6 [0xA5, 0x3C] [])) =
    some (some ⟨.endOfData, 0x00⟩, .read, 0, [⟨131072, 0⟩]) := by decide
/-- V-O1 -/
theorem test_V_O1 : seen (exec .openSource (closedState 1048576 [0xA5, 0x3C])) = some (some ⟨.ok, 0x00⟩, .read, 0, []) := by
  decide
/-- V-O2 -/
theorem test_V_O2 : seen (exec .openSource State.reset) = some (some ⟨.ioUnavailable, 0x00⟩, .closed, 0, []) := by decide
/-- V-C1 -/
theorem test_V_C1 : seen (exec .close (readingState 1048576 6 [0xA5, 0x3C] [])) =
    some (some ⟨.ok, 0x00⟩, .closed, 0, []) := by decide
/-- V-W1 -/
theorem test_V_W1 : seen (exec (.writeByte 0x41) (readingState 1048576 14 [0xA5, 0x3C] [])) =
    some (some ⟨.misusedStream, 0x00⟩, .fault, 14, []) := by decide
/-- V-W3 -/
theorem test_V_W3 : seen (exec (.writeBit true) State.reset) = some (some ⟨.misusedStream, 0x00⟩, .closed, 0, []) := by
  decide
/-- V-X3 -/
theorem test_V_X3 : seen (runWord 0x000B (openState 1048576 [0xA5])) =
    some (some ⟨.misusedStream, 0x00⟩, .fault, 0, []) := by decide
/-- V-RF1: the first bits of the file at the top of the buffer -/
theorem test_V_RF1 : refill (openState 1048576 [0xA5, 0x3C]) =
    .filled { openState 1048576 [0xA5, 0x3C] with
      sources := [], requests := [⟨131072, 2⟩], fetched := 2, nbits := 16
      buf := [false, false, true, true, true, true, false, false, true, false, true, false, false, true, false, true] } := by
  decide
/-- V-RF3: a capacity of 16 bits takes only two bytes -/
theorem test_V_RF3 : left (match refill (openState 16 [0x12, 0x34, 0x56]) with
    | .filled t => .next t
    | .fail t => .next t
    | .waiting => .next State.reset) = [0x56] := by decide
/-- V-R2: reset while a READ_BIT waits; no response -/
theorem test_V_R2 : seen (step { waitingState with inputs := [.reset 0] }) = some (none, .closed, 0, []) := by decide
/-- R161: reset during a READ_BYTE: no response, and a byte of the late answer is gone -/
theorem test_reset_during : seen (step { openState 16 [0xA5, 0x3C] with inputs := [.resetDuring ⟨0x0003, none⟩ 1] }) =
      some (none, .closed, 0, []) ∧
    left (step { openState 16 [0xA5, 0x3C] with inputs := [.resetDuring ⟨0x0003, none⟩ 1] }) = [0x3C] := by decide
/-- R167: nothing happens while the source stalls -/
theorem test_stall : step waitingState = .next waitingState := by rfl
/-- R42, U9: a bound source that has failed may stall on the retry; the retry then waits -/
theorem test_failed_source_may_stall :
    (match step { openState 16 [0xA5] with
        sources := [(0, ⟨[0xA5], [], ⟨false, true⟩⟩)], inputs := [.setStalled 0 true] } with
      | .next t => seen (exec .readBit t)
      | .fault _ => none
      | .refused _ => none) = some (none, .read, 0, []) := by decide
/-- R41, R97: the error outlasts the stall -/
theorem test_failed_source_answers_nothing : seen (step { waitingState with
    sources := [(0, ⟨[0xA5], [], ⟨false, true⟩⟩)] }) = some (some ⟨.endOfData, 0x00⟩, .read, 0, [⟨2, 0⟩]) := by decide
/-- The first step after reset runs a placed word (log 15). -/
theorem test_placed_word : seen (step (State.reset.withFetchWord 16 0x0006)) = some (some ⟨.ok, 0x00⟩, .closed, 0, []) := by
  decide
/-- U8 -/
theorem test_disturbed : step { openState 16 [0xA5] with inputs := [.setSource 0 Source.empty] } =
    .refused .sourceDisturbed := by rfl

/-- No word of the list decodes to CLOSE, by a check that looks at the list's words only. -/
theorem ne_close_of_all {ws : List Word} (h : ws.all (fun w => decide (decode w ≠ .command .close)) = true) :
    ∀ w ∈ ws, decode w ≠ .command .close :=
  fun w hw => of_decide_eq_true (List.all_eq_true.1 h w hw)

/-! ## Invariants of the states used as witnesses -/

theorem inv_closed : (closedState 16 [0xA5]).Inv :=
  ⟨⟨by decide, by decide, by decide, by decide, by decide, by decide, by decide, by decide⟩, by decide⟩
theorem inv_open : (openState 16 [0x12, 0x34, 0x56]).Inv :=
  ⟨⟨by decide, by decide, by decide, by decide, by decide, by decide, by decide, by decide⟩, by decide⟩
theorem inv_open_eight : (openState 8 [0x12, 0x34, 0x56]).Inv :=
  ⟨⟨by decide, by decide, by decide, by decide, by decide, by decide, by decide, by decide⟩, by decide⟩
theorem inv_empty : (openState 16 []).Inv :=
  ⟨⟨by decide, by decide, by decide, by decide, by decide, by decide, by decide, by decide⟩, by decide⟩
theorem inv_reading_one : (readingState 16 1 [0x01] [0x56]).Inv :=
  ⟨⟨by decide, by decide, by decide, by decide, by decide, by decide, by decide, by decide⟩, by decide⟩
theorem inv_reading_seven : (readingState 16 7 [0x12, 0x34] [0x56]).Inv :=
  ⟨⟨by decide, by decide, by decide, by decide, by decide, by decide, by decide, by decide⟩, by decide⟩
theorem inv_reading_eight : (readingState 16 8 [0x12, 0x34] [0x56]).Inv :=
  ⟨⟨by decide, by decide, by decide, by decide, by decide, by decide, by decide, by decide⟩, by decide⟩
theorem inv_reading_last : (readingState 16 7 [0x3C] []).Inv :=
  ⟨⟨by decide, by decide, by decide, by decide, by decide, by decide, by decide, by decide⟩, by decide⟩
theorem inv_stalled : (stalledState 16 7 [0x3C] [0x56]).Inv :=
  ⟨⟨by decide, by decide, by decide, by decide, by decide, by decide, by decide, by decide⟩, by decide⟩
theorem inv_stalled_empty : (stalledState 16 0 [] [0xA5]).Inv :=
  ⟨⟨by decide, by decide, by decide, by decide, by decide, by decide, by decide, by decide⟩, by decide⟩
theorem inv_waiting : waitingState.Inv :=
  ⟨⟨by decide, by decide, by decide, by decide, by decide, by decide, by decide, by decide⟩, by decide⟩

/-! ## Witnesses: states and operands that meet the hypotheses of each obligation -/

theorem witness_DecodingIsTotalAndExact :
    ((0x000B : Word).toNat / 8 % 32 ≠ 0) ∧ ((0xAB06 : Word).toNat / 8 % 32 = 0 ∧ (0xAB06 : Word).toNat % 8 = 6) ∧
    ((0x0007 : Word).toNat / 8 % 32 = 0 ∧ (0x0007 : Word).toNat % 8 = 7) := by decide

theorem witness_DecodeAndEncodeAgree : decode 0xFF03 = .command .readByte ∧ decode 0xFE04 = .command (.writeBit false) := by
  decide

theorem witness_IgnoredBitsHaveNoEffect :
    decode 0xFF05 = .command (.writeByte 0xFF) ∧ decode 0x0104 = .command (.writeBit true) ∧
    (0xFF03 : Word).toNat % 256 = (0x0003 : Word).toNat % 256 ∧ (0xFF03 : Word) ≠ 0x0003 := by decide

theorem witness_AssemblerEmitsTheWords :
    AsmLine.assemble (.writeBit 1) = .ok 0x0104 ∧ AsmLine.assemble (.writeByte 255) = .ok 0xFF05 ∧
    AsmLine.assemble (.rawWord 65535) = .ok 0xFFFF ∧ AsmLine.assemble (.writeBit 2) = .error .outOfRange ∧
    AsmLine.assemble (.writeByte 256) = .error .outOfRange ∧ AsmLine.assemble (.rawWord 65536) = .error .outOfRange := by
  decide

theorem witness_CountsFitTheirWidths : (openState 16 [0x12, 0x34, 0x56]).Sound := inv_open.sound

theorem witness_ChunkPolicies : ∃ (x : Source) (max : Nat), 0 < max ∧ x.mood.failed = false ∧ x.remaining ≠ [] ∧ x.chunks = [] ∧
    (1 ≤ 2 ∧ 2 ≤ min x.remaining.length max) :=
  ⟨⟨[0xA5, 0x3C, 0x12], [], .ready⟩, 2, by decide⟩

theorem witness_SourceRequestTakesTheFront : ∃ (max : Nat) (s t : State) (bytes : List Byte), s.Sound ∧ 0 < max ∧
    srcRead max s = some (bytes, t) ∧ bytes.length = max :=
  ⟨2, openState 16 [0x12, 0x34, 0x56], _, _, inv_open.sound, by decide, rfl, by decide⟩

theorem witness_SourceRequestTakesTheFront_none_left : ∃ (max : Nat) (s t : State), s.Sound ∧ 0 < max ∧
    srcRead max s = some ([], t) :=
  ⟨2, openState 16 [], _, inv_empty.sound, by decide, rfl⟩

theorem witness_RequestBlocksWhileStalled : ∃ (s : State) (h : Nat), s.src = some h ∧
    (s.sources.read h).mood.stalled = true :=
  ⟨waitingState, 0, by decide⟩

theorem witness_StreamBitOrder : ∃ (bytes : List Byte) (i : Nat), i < 8 * bytes.length ∧ i % 8 = 7 :=
  ⟨[0xA5, 0x3C], 15, by decide⟩

theorem witness_SourceTableLaws : ∃ t : Sources, t.wf = true ∧ t.length = 2 :=
  ⟨[(0, ⟨[0xA5], [], .ready⟩), (7, ⟨[], [], ⟨true, false⟩⟩)], by decide⟩

theorem witness_RefillStorageOrder : ∃ s t : State, s.Sound ∧ s.canAnswer = true ∧ refill s = .filled t ∧
    t.nbits = s.cfg.capBits :=
  ⟨openState 16 [0x12, 0x34, 0x56], _, inv_open.sound, by decide, rfl, by decide⟩

theorem witness_RefillStorageOrder_fails : ∃ s t : State, s.Sound ∧ s.canAnswer = true ∧ refill s = .fail t :=
  ⟨openState 16 [], _, inv_empty.sound, by decide, rfl⟩

theorem witness_BufferRefinesPending : ∃ s t : State, s.nbits ≠ 0 ∧ t.nbits = 0 :=
  ⟨readingState 16 1 [0x01] [0x56], openState 16 [], by decide⟩

theorem witness_RefillIsLazy : ∃ (w : Word) (s t : State), s.Inv ∧ s.inFlight = none ∧ runWord w s = .next t ∧
    t.requests ≠ s.requests :=
  ⟨0x0003, readingState 16 7 [0x12, 0x34] [0x56], _, inv_reading_seven, by decide, rfl, by decide⟩

theorem witness_RefillIsLazy_no_request : ∃ (w : Word) (s t : State), s.Inv ∧ s.inFlight = none ∧ runWord w s = .next t ∧
    t.requests = s.requests ∧ t.nbits = 0 :=
  ⟨0x0003, readingState 16 8 [0x12, 0x34] [0x56], _, inv_reading_eight, by decide, rfl, by decide⟩

theorem witness_StaleCellsAreNeverRead : ∃ (w : Word) (s : State) (buf' : List Bool), s.Sound ∧
    buf'.length ≤ s.cfg.capBits ∧ s.nbits ≤ buf'.length ∧ buf' ≠ s.buf ∧
    (∀ i : Nat, i < s.nbits → buf'[i]? = s.buf[i]?) ∧ decode w = .command .readBit :=
  ⟨0x0002, readingState 16 1 [0x01] [0x56], [true, true], inv_reading_one.sound, by decide, by decide, by decide, by decide,
    by decide⟩

theorem witness_ReadBitResult : ∃ (s : State) (b : Bool) (rest : List Bool), s.Inv ∧ s.phase = .read ∧ s.nbits ≠ 0 ∧
    s.deliverable = b :: rest :=
  ⟨readingState 16 1 [0x01] [0x56], true, bitSeq [0x56], inv_reading_one, by decide⟩

theorem witness_ReadBitResult_refill : ∃ (s : State) (b : Bool) (rest : List Bool), s.Inv ∧ s.phase = .read ∧
    s.canAnswer = true ∧ s.nbits = 0 ∧ s.deliverable = b :: rest :=
  ⟨openState 16 [0x12, 0x34, 0x56], false, (bitSeq [0x12, 0x34, 0x56]).drop 1, inv_open, by decide⟩

theorem witness_ReadBitResult_end : ∃ s : State, s.Inv ∧ s.phase = .read ∧ s.canAnswer = true ∧ s.deliverable = [] :=
  ⟨openState 16 [], inv_empty, by decide⟩

theorem witness_ReadBitResult_misuse : ∃ s : State, s.phase ≠ .read := ⟨State.reset, by decide⟩

theorem witness_ReadBitFromTheBuffer : ∃ s : State, s.phase = .read ∧ s.nbits ≠ 0 :=
  ⟨readingState 16 1 [0x01] [0x56], by decide⟩

theorem witness_ReadByteResult_buffered : ∃ s : State, s.Inv ∧ s.phase = .read ∧ s.nbits = 8 ∧ 8 ≤ s.deliverable.length :=
  ⟨readingState 16 8 [0x12, 0x34] [0x56], inv_reading_eight, by decide⟩

theorem witness_ReadByteResult_refill : ∃ s : State, s.Inv ∧ s.phase = .read ∧ s.canAnswer = true ∧ s.nbits = 7 ∧
    8 ≤ s.deliverable.length :=
  ⟨readingState 16 7 [0x12, 0x34] [0x56], inv_reading_seven, by decide⟩

theorem witness_ReadByteResult_end : ∃ s : State, s.Inv ∧ s.phase = .read ∧ s.canAnswer = true ∧
    s.deliverable.length = 7 :=
  ⟨readingState 16 7 [0x3C] [], inv_reading_last, by decide⟩

theorem witness_ReadByteAcrossByteBoundaries_aligned : ∃ (s : State) (a : Byte) (rest : List Byte), s.Inv ∧
    s.phase = .read ∧ s.canAnswer = true ∧ s.deliverable = bitSeq (a :: rest) :=
  ⟨openState 16 [0x12, 0x34, 0x56], 0x12, [0x34, 0x56], inv_open, by decide⟩

theorem witness_ReadByteAcrossByteBoundaries_offset : ∃ (s : State) (a b : Byte) (rest : List Byte) (r : Nat), s.Inv ∧
    s.phase = .read ∧ s.canAnswer = true ∧ r < 8 ∧ s.deliverable = (bitSeq (a :: b :: rest)).drop r :=
  ⟨readingState 16 1 [0x01] [0x56], 0x01, 0x56, [], 7, inv_reading_one, by decide⟩

theorem witness_FailingReadByteIsNotUndone : ∃ s : State, s.Inv ∧ s.phase = .read ∧ s.canAnswer = true ∧
    s.deliverable.length < 8 :=
  ⟨readingState 16 7 [0x3C] [], inv_reading_last, by decide⟩

theorem witness_EndOfDataRepeats : ∃ s t : State, s.Inv ∧ s.phase = .read ∧ s.canAnswer = true ∧
    exec .readByte s = .next t ∧ t.rsp = some ⟨.endOfData, 0⟩ :=
  ⟨readingState 16 7 [0x3C] [], _, inv_reading_last, by decide, by decide, rfl, by decide⟩

theorem witness_ReadCommandsFrame : ∃ s t : State, s.Inv ∧ s.phase = .read ∧ exec .readByte s = .next t ∧
    t.requests ≠ s.requests :=
  ⟨readingState 16 7 [0x12, 0x34] [0x56], _, inv_reading_seven, by decide, rfl, by decide⟩

theorem witness_PositionCountsDeliveredBits : ∃ s : State, s.Inv ∧ s.phase = .read ∧ s.canAnswer = true ∧
    s.position = 9 :=
  ⟨readingState 16 7 [0x12, 0x34] [0x56], inv_reading_seven, by decide⟩

theorem witness_OpenBindsOrReports : (∃ (s : State) (h : Nat), s.phase = .closed ∧ s.srcIn = some h) ∧
    (∃ s : State, s.phase = .closed ∧ s.srcIn = none) ∧ (∃ s : State, s.phase ≠ .closed) :=
  ⟨⟨closedState 16 [0xA5], 0, by decide⟩, ⟨State.reset, by decide⟩, ⟨openState 16 [], by decide⟩⟩

theorem witness_OpenStartsAtTheNextByte : ∃ (s t : State) (h : Nat), s.phase = .closed ∧ s.srcIn = some h ∧
    exec .openSource s = .next t :=
  ⟨closedState 16 [0xA5], _, 0, by decide, by decide, rfl⟩

theorem witness_HandOverLosesBufferedBits : ∃ (s t u : State) (h : Nat), s.Inv ∧ s.src = some h ∧ s.srcIn = some h ∧
    exec .close s = .next t ∧ exec .openSource t = .next u ∧ s.nbits = 7 :=
  ⟨readingState 16 7 [0x12, 0x34] [0x56], _, _, 0, inv_reading_seven, by decide, by decide, rfl, rfl, by decide⟩

theorem witness_ReservedWordsAreMisuse : (0x0000 : Word).toNat % 8 = 0 ∧ (0xFFFF : Word).toNat % 8 = 7 ∧
    (0x000B : Word).toNat / 8 % 32 ≠ 0 := by decide

theorem witness_WordsOfTheCommands : (0xFF01 : Word).toNat % 256 = 1 ∧ (0xFF02 : Word).toNat % 256 = 2 ∧
    (0xFF03 : Word).toNat % 256 = 3 ∧ (0xFE04 : Word).toNat % 256 = 4 ∧ (0xFF05 : Word).toNat % 256 = 5 ∧
    (0xAB06 : Word).toNat % 256 = 6 := by decide

theorem witness_FaultIsDeadUntilClose : ∃ (ws : List Word) (s : State), s.phase = .fault ∧ s.inFlight = none ∧ ws ≠ [] ∧
    (∀ w ∈ ws, decode w ≠ .command .close) :=
  ⟨[0x0001, 0x0003, 0x00F9], { openState 16 [] with phase := .fault }, rfl, rfl, by simp, ne_close_of_all (by decide)⟩

theorem witness_OutcomeTable : ∃ s : State, s.Inv ∧ s.phase = .read ∧ s.canAnswer = true :=
  ⟨openState 16 [0x12, 0x34, 0x56], inv_open, by decide⟩

theorem witness_OutcomeTable_closed : ∃ s : State, s.Inv ∧ s.phase ≠ .read := ⟨closedState 16 [0xA5], inv_closed, by decide⟩

/-- A stalled source stops no write command, and no read the buffer can serve. -/
theorem witness_OutcomeTable_stalled : ∃ s : State, s.Inv ∧ s.phase = .read ∧ s.canAnswer = false ∧
    bitsNeeded (decode 0x0104) ≤ s.nbits ∧ bitsNeeded (decode 0x0002) ≤ s.nbits :=
  ⟨stalledState 16 7 [0x3C] [0x56], inv_stalled, by decide⟩

theorem witness_ErrorsArePrecise : ∃ (w : Word) (s t : State) (r : Response), s.Inv ∧ s.canAnswer = true ∧
    runWord w s = .next t ∧ t.rsp = some r ∧ r.status ≠ .ok ∧ t.nbits ≠ s.nbits :=
  ⟨0x0003, readingState 16 7 [0x3C] [], _, ⟨.endOfData, 0⟩, inv_reading_last, by decide, rfl, by decide⟩

theorem witness_ErrorsArePrecise_misuse : ∃ (w : Word) (s t : State) (r : Response), s.Inv ∧ s.phase = .read ∧
    runWord w s = .next t ∧ t.rsp = some r ∧ r.status = .misusedStream ∧ t.phase = .fault :=
  ⟨0x0000, openState 16 [0x12, 0x34, 0x56], _, ⟨.misusedStream, 0⟩, inv_open, by decide, rfl, by decide⟩

theorem witness_StepRunsTheDecodedCommand : ∃ (s : State) (c : Command) (rest : List Command), s.inFlight = none ∧
    s.commands = c :: rest ∧ decode c.word = .command .openSource :=
  ⟨{ State.reset with commands := [⟨0x0001, some 0⟩, ⟨0x000B, none⟩] }, ⟨0x0001, some 0⟩, [⟨0x000B, none⟩], by decide⟩

theorem witness_StepRunsTheDecodedCommand_reserved : ∃ (s : State) (c : Command) (rest : List Command), s.inFlight = none ∧
    s.commands = c :: rest ∧ decode c.word = .reserved :=
  ⟨{ State.reset with commands := [⟨0x000B, none⟩] }, ⟨0x000B, none⟩, [], by decide⟩

theorem witness_PlacedWordRunsNext : 0xFF05 < 65536 ∧ decodeTableWord 16 0xFF05 = some (.writeByte 0xFF) := by decide

theorem witness_EarlyCommandIsHeld : ∃ (s : State) (op : InFlight) (c : Command) (rest : List Input),
    s.inFlight = some op ∧ s.canAnswer = false ∧ s.inputs = .command c :: rest :=
  ⟨{ waitingState with inputs := [.command ⟨0x0006, none⟩] }, .readBit, ⟨0x0006, none⟩, [], by decide⟩

theorem witness_EarlyCommandIsHeld_answer : ∃ (s t : State) (op : InFlight), s.inFlight = some op ∧ step s = .next t ∧
    s.canAnswer = true ∧ s.commands ≠ [] :=
  ⟨{ openState 16 [0xA5] with inFlight := some .readBit, commands := [⟨0x0006, none⟩] }, _, .readBit, by decide, rfl,
    by decide, by decide⟩

theorem witness_EarlyCommandIsHeld_doings :
    (∃ (s t : State) (op : InFlight) (e : Input) (rest : List Input) (c : Command) (lost : Nat), s.inFlight = some op ∧
      step s = .next t ∧ s.canAnswer = false ∧ s.inputs = e :: rest ∧ e = .resetDuring c lost) ∧
    (∃ (s t : State) (op : InFlight) (e : Input) (rest : List Input), s.inFlight = some op ∧ step s = .next t ∧
      s.canAnswer = false ∧ s.inputs = e :: rest ∧ (∀ c : Command, e ≠ .command c) ∧
      (∀ (c : Command) (lost : Nat), e ≠ .resetDuring c lost)) :=
  ⟨⟨{ waitingState with inputs := [.resetDuring ⟨0x0006, none⟩ 0] }, _, .readBit, .resetDuring ⟨0x0006, none⟩ 0, [],
      ⟨0x0006, none⟩, 0, by decide, rfl, by decide, by decide, rfl⟩,
    ⟨{ waitingState with inputs := [.setStalled 0 false] }, _, .readBit, .setStalled 0 false, [], by decide, rfl,
      by decide, by decide, by simp, by simp⟩⟩

theorem witness_StalledSourceHangs : ∃ (s : State) (op : InFlight), s.inFlight = some op ∧ s.canAnswer = false ∧
    s.inputs = [] :=
  ⟨waitingState, .readBit, by decide⟩

theorem witness_ReadOfStalledSourceWaits : ∃ s : State, s.Inv ∧ s.phase = .read ∧ s.canAnswer = false ∧ s.nbits = 7 :=
  ⟨stalledState 16 7 [0x3C] [0x56], inv_stalled, by decide⟩

theorem witness_ReadOfStalledSourceWaits_empty : ∃ s : State, s.Inv ∧ s.phase = .read ∧ s.canAnswer = false ∧ s.nbits = 0 :=
  ⟨stalledState 16 0 [] [0xA5], inv_stalled_empty, by decide⟩

theorem witness_WaitingOnlyDelays_readBit : ∃ (s t : State) (op : InFlight), s.Inv ∧ s.inFlight = none ∧ s.phase = .read ∧
    s.boundSource.mood.stalled = true ∧ exec .readBit s = .next t ∧ t.inFlight = some op :=
  ⟨stalledState 16 0 [] [0xA5], _, .readBit, inv_stalled_empty, by decide, by decide, by decide, rfl, by decide⟩

theorem witness_WaitingOnlyDelays : ∃ (s t : State) (op : InFlight), s.Inv ∧ s.inFlight = none ∧ s.phase = .read ∧
    s.boundSource.mood.stalled = true ∧ exec .readByte s = .next t ∧ t.inFlight = some op :=
  ⟨stalledState 16 7 [0x3C] [0x56], _, .readByte 1 0x3C, inv_stalled, by decide, by decide, by decide, rfl, by decide⟩

theorem witness_ResetEvent : ∃ (s : State) (e : Input) (rest : List Input), s.outsideTurn = true ∧
    s.inputs = e :: rest ∧ e.isReset = true :=
  ⟨{ openState 16 [0xA5] with inputs := [.reset 0] }, .reset 0, [], by decide⟩

theorem witness_ResetEvent_during : ∃ (s : State) (e : Input) (rest : List Input), s.outsideTurn = true ∧
    s.inputs = e :: rest ∧ e.isReset = true ∧ s.inFlight = some .readBit :=
  ⟨{ waitingState with inputs := [.resetDuring ⟨0x0006, none⟩ 0] }, .resetDuring ⟨0x0006, none⟩ 0, [], by decide⟩

theorem witness_ResetAbandonsTheCommandPerformed : ∃ (s : State) (c : Command) (lost h : Nat) (rest : List Input), s.Inv ∧
    s.inFlight = none ∧ s.commands = [] ∧ s.inputs = .resetDuring c lost :: rest ∧ s.src = some h ∧ s.phase = .read ∧
    s.nbits < bitsNeeded (decode c.word) :=
  ⟨{ openState 16 [0xA5] with inputs := [.resetDuring ⟨0x0003, none⟩ 1] }, ⟨0x0003, none⟩, 1, 0, [],
    ⟨⟨by decide, by decide, by decide, by decide, by decide, by decide, by decide, by decide⟩, by decide⟩, by decide⟩

theorem witness_ResetAbandonsTheCommandPerformed_close : ∃ (s : State) (c : Command) (lost : Nat) (rest : List Input),
    s.Inv ∧ s.inFlight = none ∧ s.commands = [] ∧ s.inputs = .resetDuring c lost :: rest ∧
    ¬ (s.phase = .read ∧ s.nbits < bitsNeeded (decode c.word)) :=
  ⟨{ openState 16 [0xA5] with inputs := [.resetDuring ⟨0x0006, none⟩ 1] }, ⟨0x0006, none⟩, 1, [],
    ⟨⟨by decide, by decide, by decide, by decide, by decide, by decide, by decide, by decide⟩, by decide⟩, by decide⟩

theorem witness_ResetAbandonsTheWaitingCommand : ∃ (s : State) (op : InFlight) (lost h : Nat) (rest : List Input), s.Inv ∧
    s.inFlight = some op ∧ s.canAnswer = false ∧ s.inputs = .reset lost :: rest ∧ s.src = some h :=
  ⟨{ waitingState with inputs := [.reset 1] }, .readBit, 1, 0, [],
    ⟨⟨by decide, by decide, by decide, by decide, by decide, by decide, by decide, by decide⟩, by decide⟩, by decide⟩

theorem witness_IdleKeepsTheState : ∃ s : State, s.inFlight = none ∧ s.commands = [] ∧ s.inputs = [] ∧ s.phase = .read :=
  ⟨openState 16 [0xA5], by decide⟩

theorem witness_OutsideLeavesTheBlockAlone : ∃ (e : Input) (s t : State), e.isReset = false ∧
    applyInput e s = .next t ∧ t ≠ s :=
  ⟨.readError 0, openState 16 [0xA5], _, rfl, rfl, by decide⟩

theorem witness_OnlyADisturbedSourceStops : (∃ (s : State) (r : Refusal), step s = .refused r) ∧
    (∃ s : State, s.hostBehaves = true ∧ s.inputs ≠ []) ∧
    (∃ (s : State) (e : Input) (rest : List Input), s.outsideTurn = true ∧ s.inputs = e :: rest ∧ disturbs e s = true) :=
  ⟨⟨{ openState 16 [0xA5] with inputs := [.setSource 0 Source.empty] }, .sourceDisturbed, rfl⟩,
    ⟨{ openState 16 [0xA5] with inputs := [.setSource 1 Source.empty] }, by decide⟩,
    ⟨{ openState 16 [0xA5] with inputs := [.setSource 0 Source.empty] }, .setSource 0 Source.empty, [], by decide⟩⟩

/-- Each doing of the outside world, at an idle block and at one that waits. -/
theorem witness_OutsideDoingsTakeEffect : ∃ s : State, s.Inv ∧ s.outsideTurn = true ∧ s.src = some 0 ∧ s.inFlight = none ∧
    (∀ e : Input, { s with inputs := [e] }.Inv ∧ { s with inputs := [e] }.outsideTurn = true) :=
  ⟨openState 16 [0x12, 0x34, 0x56], inv_open, by decide, by decide, by decide,
    fun _ => ⟨⟨⟨inv_open.sound.1, inv_open.sound.2, inv_open.sound.3, inv_open.sound.4, inv_open.sound.5, inv_open.sound.6,
      inv_open.sound.7, inv_open.sound.8⟩, rfl⟩, rfl⟩⟩

theorem witness_OutsideDoingsTakeEffect_waiting : ∃ (s : State) (e : Input), s.Inv ∧ s.outsideTurn = true ∧
    s.inputs = [e] ∧ s.inFlight = some .readBit :=
  ⟨{ waitingState with inputs := [.readError 0] }, .readError 0,
    ⟨⟨by decide, by decide, by decide, by decide, by decide, by decide, by decide, by decide⟩, by decide⟩, by decide⟩

theorem witness_OutsideDoingsTakeEffect_set : ∃ (s : State) (x y : Source), s.src = some 0 ∧ s.src ≠ some 1 ∧
    x.remaining = (s.sources.read 0).remaining ∧ y.remaining ≠ (s.sources.read 1).remaining :=
  ⟨openState 16 [0xA5], ⟨[0xA5], [1], ⟨true, true⟩⟩, ⟨[0x3C], [], .ready⟩, by decide⟩

theorem witness_StepKeepsTheInvariant : ∃ s t : State, s.Inv ∧ step s = .next t ∧ t ≠ s :=
  ⟨{ openState 16 [0x12, 0x34, 0x56] with commands := [⟨0x0002, none⟩] }, _,
    ⟨⟨by decide, by decide, by decide, by decide, by decide, by decide, by decide, by decide⟩, by decide⟩, rfl, by decide⟩

theorem witness_ResponsesStayLegal : ∃ s t : State, s.responsesLegal = true ∧ step s = .next t ∧
    t.responses ≠ s.responses :=
  ⟨State.reset.withFetchWord 16 0x0006, _, by decide, rfl, by decide⟩

theorem witness_PhaseChangesOnlyByItsCauses_read : ∃ s t : State, s.Inv ∧ step s = .next t ∧ t.phase ≠ s.phase ∧
    t.phase = .read :=
  ⟨{ closedState 16 [0xA5] with commands := [⟨0x0001, some 0⟩] }, _,
    ⟨⟨by decide, by decide, by decide, by decide, by decide, by decide, by decide, by decide⟩, by decide⟩, rfl, by decide⟩

theorem witness_PhaseChangesOnlyByItsCauses_fault : ∃ s t : State, s.Inv ∧ step s = .next t ∧ t.phase ≠ s.phase ∧
    t.phase = .fault :=
  ⟨{ openState 16 [0xA5] with commands := [⟨0x0004, none⟩] }, _,
    ⟨⟨by decide, by decide, by decide, by decide, by decide, by decide, by decide, by decide⟩, by decide⟩, rfl, by decide⟩

theorem witness_PhaseChangesOnlyByItsCauses_closed : ∃ s t : State, s.Inv ∧ step s = .next t ∧ t.phase ≠ s.phase ∧
    t.phase = .closed :=
  ⟨{ openState 16 [0xA5] with commands := [⟨0x0006, none⟩] }, _,
    ⟨⟨by decide, by decide, by decide, by decide, by decide, by decide, by decide, by decide⟩, by decide⟩, rfl, by decide⟩

theorem witness_ConfigurationNeverChanges : ∃ s t : State, step s = .next t ∧ s.cfg = ⟨16⟩ :=
  ⟨{ openState 16 [0xA5] with inputs := [.reset 0] }, _, rfl, by decide⟩

theorem witness_OneResponseOneRequestAStep : ∃ s t : State, s.Inv ∧ step s = .next t ∧ t.requests ≠ s.requests ∧
    t.responses ≠ s.responses :=
  ⟨{ openState 16 [0x12, 0x34, 0x56] with commands := [⟨0x0003, none⟩] }, _,
    ⟨⟨by decide, by decide, by decide, by decide, by decide, by decide, by decide, by decide⟩, by decide⟩, rfl, by decide⟩

theorem witness_StreamIsConsumedInOrder : ∃ (k h : Nat) (s t : State), s.Inv ∧ boundRun h k s t ∧ s.position < t.position :=
  ⟨1, 0, { openState 16 [0x12, 0x34, 0x56] with commands := [⟨0x0003, none⟩] }, _,
    ⟨⟨by decide, by decide, by decide, by decide, by decide, by decide, by decide, by decide⟩, by decide⟩,
    ⟨rfl, _, rfl, rfl, rfl⟩, by decide⟩

theorem witness_StreamLaw : ∃ (ws : List Word) (s : State) (h : Nat), s.Inv ∧ s.phase = .closed ∧ s.inFlight = none ∧
    s.srcIn = some h ∧ (s.sources.read h).mood = .ready ∧ (∀ w ∈ ws, decode w ≠ .command .close) ∧ ws.length = 3 :=
  ⟨[0x0002, 0x0003, 0x0002], closedState 16 [0xA5], 0, inv_closed, rfl, rfl, rfl, rfl, ne_close_of_all (by decide), rfl⟩

theorem witness_ResponsesIgnoreChunkingAndCapacity : ∃ (ws : List Word) (s s' : State), SameToIssuer s s' ∧
    s.cfg ≠ s'.cfg ∧ ws ≠ [] ∧ (∀ w ∈ ws, decode w ≠ .command .close) :=
  ⟨[0x0003, 0x0002], openState 16 [0x12, 0x34, 0x56], openState 8 [0x12, 0x34, 0x56],
    ⟨inv_open, inv_open_eight, by decide, by decide, by decide, by decide, by decide, by decide, by decide⟩, by decide,
    by simp, ne_close_of_all (by decide)⟩

theorem witness_ReaderReturnsWhatTheProducerWrote : ∃ (bits : List Bool) (s : State), s.Inv ∧ s.phase = .read ∧
    s.nbits = 0 ∧ s.inFlight = none ∧ s.src.isSome = true ∧ s.boundSource.mood = .ready ∧
    s.boundSource.remaining = producerBytes bits ∧ bits.length = 3 :=
  ⟨[true, false, true], openState 16 [0xA0],
    ⟨⟨by decide, by decide, by decide, by decide, by decide, by decide, by decide, by decide⟩, by decide⟩, by decide⟩

end Sys2Proof.Tests
end

section
/-! SUPPORT. Proofs of the statements of 00_scope.md: the widths (R5, R6), the counts that fit them (R22, R98), the sizes
of a source's answers (R7), and that no step changes the configuration (R5, R29, R160). -/

namespace Sys2Proof.Machine

/-! ## Widths (R6) -/

/-- Counting from 0 to a power of two needs one bit more than its exponent. -/
theorem clog_two_pow_add_one (k : Nat) : Nat.clog 2 (2 ^ k + 1) = k + 1 := by
  have hpow : Nat.clog 2 (2 ^ k) = k := Nat.clog_pow 2 k Nat.one_lt_two
  have hlow : Nat.clog 2 (2 ^ k) < Nat.clog 2 (2 ^ k + 1) :=
    (Nat.clog_lt_clog_succ_iff Nat.one_lt_two).mpr (by rw [hpow])
  have hhigh : Nat.clog 2 (2 ^ k + 1) ≤ k + 1 :=
    Nat.clog_le_of_le_pow (Nat.pow_lt_pow_right Nat.one_lt_two k.lt_succ_self)
  omega

theorem nbitsWidth_of_capBits_pow (c : Config) (k : Nat) (h : c.capBits = 2 ^ k) : c.nbitsWidth = k + 1 := by
  rw [Config.nbitsWidth, h, clog_two_pow_add_one]

theorem reqWidth_of_capBytes_pow (c : Config) (k : Nat) (h : c.capBytes = 2 ^ k) : c.reqWidth = k + 1 := by
  rw [Config.reqWidth, h, clog_two_pow_add_one]

theorem default_capBits : Config.default.capBits = 2 ^ 20 := rfl

theorem default_capBytes : Config.default.capBytes = 2 ^ 17 := rfl

/-- Settles O8: the widths follow from the capacities being powers of two. -/
theorem defaultWidths : Obligations.DefaultWidths :=
  ⟨default_capBits, default_capBytes, nbitsWidth_of_capBits_pow _ 20 default_capBits,
    reqWidth_of_capBytes_pow _ 17 default_capBytes, rfl⟩

theorem capBits_lt_pow_nbitsWidth (c : Config) : c.capBits < 2 ^ c.nbitsWidth :=
  Nat.le_pow_clog Nat.one_lt_two (c.capBits + 1)

theorem capBytes_lt_pow_reqWidth (c : Config) : c.capBytes < 2 ^ c.reqWidth :=
  Nat.le_pow_clog Nat.one_lt_two (c.capBytes + 1)

/-- Settles O9: the count is at most the capacity, which its width holds; a legal capacity has at least one byte. -/
theorem countsFitTheirWidths : Obligations.CountsFitTheirWidths := fun s hs =>
  ⟨hs.countInRange.trans_lt (capBits_lt_pow_nbitsWidth s.cfg), capBytes_lt_pow_reqWidth s.cfg, hs.capBytes_pos⟩

/-! ## The size of a source's answer (R7) -/

theorem Source.supply_of_not_failed (x : Source) (hf : x.mood.failed = false) : x.supply = x.remaining := by
  simp [Source.supply, hf]

/-- Without a pick the answer is as long as it can be (D8). -/
theorem Source.pick_of_no_chunks (x : Source) (max : Nat) (hc : x.chunks = []) :
    x.pick max = min x.supply.length max := by
  simp [Source.pick, hc]

/-- A pick the source can meet is the size of its answer. -/
theorem Source.pick_of_chunk (x : Source) (max n : Nat) (later : List Nat) (hc : x.chunks = n :: later)
    (hpos : 1 ≤ n) (hle : n ≤ min x.supply.length max) : x.pick max = n := by
  have hn : Nat.max 1 n = n := Nat.max_eq_right hpos
  simp [Source.pick, hc, hn, hle]

/-- Settles O10: the length of an answer is the source's pick. -/
theorem chunkPolicies : Obligations.ChunkPolicies := by
  intro x max hmax hf hne
  have hs : x.supply = x.remaining := x.supply_of_not_failed hf
  refine ⟨?_, fun n later hpos hle => ?_, fun hc => ?_⟩
  · rw [Source.answer_length, ← hs]
    exact ⟨x.pick_pos max (hs ▸ hne) hmax, x.pick_le max⟩
  · rw [Source.answer_length]
    refine Source.pick_of_chunk _ max n later rfl hpos ?_
    rwa [Source.supply_of_not_failed { x with chunks := n :: later } hf]
  · rw [Source.answer_length, x.pick_of_no_chunks max hc, hs]

/-! ## The configuration (R5, R29, R160) -/

theorem ReadEnds.cfg_eq {s t : State} (h : ReadEnds s t) : t.cfg = s.cfg := by
  cases h with
  | answered u st d hu _ => exact hu.cfg
  | waits u op hu => exact hu.cfg

theorem runWord_keeps_cfg (w : Word) (s t : State) (h : runWord w s = .next t) : t.cfg = s.cfg := by
  rcases runWord_cases w s with
    ⟨hr, _⟩ | ⟨hr, _⟩ | ⟨k, hr, _⟩ | ⟨hr, _⟩ | ⟨hr, _⟩ | ⟨hr, _⟩ <;>
    obtain rfl := Host.Outcome.next.inj (hr.symm.trans h)
  · exact misuse_cfg s
  · exact raise_cfg .ioUnavailable s
  · rw [respond_cfg, bindTo_cfg]
  · rw [respond_cfg, release_cfg]
  · exact (runReadBit_ends s).cfg_eq
  · exact (runReadByte_ends 8 0 s).cfg_eq

theorem applyInput_keeps_cfg (e : Input) (s t : State) (h : applyInput e s = .next t) : t.cfg = s.cfg := by
  rcases applyInput_cases e s t h with ⟨c, _, rfl⟩ | ⟨lost, _, rfl⟩ | ⟨c, lost, _, rfl⟩ | ⟨k, x, _, _, rfl⟩
  · exact send_cfg c s
  · exact resetBlock_cfg lost s
  · rw [resetBlock_cfg, interruptedIn_cfg]
  · rfl

/-- Settles O54, by what a step can do: go on with a command, run a word, or let the outside world move. -/
theorem configurationNeverChanges : Obligations.ConfigurationNeverChanges := by
  intro s t h
  rcases step_cases s t h with ⟨op, _, _, rfl⟩ | ⟨c, rest, _, _, hw⟩ | ⟨_, _, rfl⟩ | ⟨e, rest, _, _, he⟩
  · exact (resume_ends op s).cfg_eq
  · exact (runWord_keeps_cfg _ _ _ hw).trans (accept_cfg c rest s)
  · rfl
  · exact applyInput_keeps_cfg e { s with inputs := rest } t he

end Sys2Proof.Machine
end

section
/-! SUPPORT. Proofs of the statements of 10_state.md on the machine's invariant (R26, R32, R98): which updates keep it,
that every step does, and that the state after reset meets it. -/

namespace Sys2Proof.Machine

/-! ## Rules for the invariant: what each update of the state keeps of it (R26, R98) -/

/-- The invariant speaks of none of these fields: responses, the channels, and the command in progress. -/
theorem State.Sound.with_unread {s : State} (h : s.Sound) (rsp : Option Response) (inFlight : Option InFlight)
    (srcIn : Option Nat) (commands : List Command) (inputs : List Input) (responses : List Response)
    (requests : List Request) :
    State.Sound { s with
      rsp := rsp, inFlight := inFlight, srcIn := srcIn, commands := commands, inputs := inputs
      responses := responses, requests := requests } :=
  ⟨h.legalCapacity, h.countInRange, h.cellsWritten, h.cellsFit, h.closedIsEmpty, h.boundExactly, h.sourcesCanonical,
    h.fetchedCovers⟩

theorem State.Sound.respond {s : State} (h : s.Sound) (st : Status) (d : Byte) : (s.respond st d).Sound :=
  h.with_unread ..

theorem State.Sound.park {s : State} (h : s.Sound) (op : InFlight) : (s.park op).Sound := h.with_unread ..

theorem State.Sound.accept {s : State} (h : s.Sound) (c : Command) (rest : List Command) : (s.accept c rest).Sound :=
  h.with_unread ..

theorem State.Sound.interruptedIn {s : State} (h : s.Sound) (c : Command) : (s.interruptedIn c).Sound := by
  unfold State.interruptedIn
  split
  · exact h.with_unread ..
  · split
    · exact h.park .readBit
    · exact h

/-- A failing read empties the buffer and records its request (R96). -/
theorem State.Sound.exhaust {s : State} (h : s.Sound) (reqs : List Request) :
    State.Sound { s with nbits := 0, requests := reqs } :=
  ⟨h.legalCapacity, Nat.zero_le _, Nat.zero_le _, h.cellsFit, fun _ => rfl, h.boundExactly, h.sourcesCanonical,
    Nat.zero_le _⟩

@[simp] theorem Phase.afterMisuse_eq_closed (p : Phase) : p.afterMisuse = .closed ↔ p = .closed := by
  cases p <;> simp [Phase.afterMisuse]

/-- A misuse keeps the binding, and moves no phase into or out of CLOSED (R146). -/
theorem State.Sound.misuse {s : State} (h : s.Sound) : s.misuse.Sound where
  legalCapacity := h.legalCapacity
  countInRange := h.countInRange
  cellsWritten := h.cellsWritten
  cellsFit := h.cellsFit
  closedIsEmpty hp := h.closedIsEmpty (s.phase.afterMisuse_eq_closed.mp hp)
  boundExactly := h.boundExactly.trans (not_congr s.phase.afterMisuse_eq_closed.symm)
  sourcesCanonical := h.sourcesCanonical
  fetchedCovers := h.fetchedCovers

theorem State.Sound.bindTo {s : State} (h : s.Sound) (k : Nat) : (s.bindTo k).Sound :=
  ⟨h.legalCapacity, Nat.zero_le _, Nat.zero_le _, h.cellsFit, fun _ => rfl, by simp, h.sourcesCanonical, Nat.zero_le _⟩

theorem State.Sound.release {s : State} (h : s.Sound) : s.release.Sound :=
  ⟨h.legalCapacity, Nat.zero_le _, Nat.zero_le _, h.cellsFit, fun _ => rfl, by simp, h.sourcesCanonical, Nat.zero_le _⟩

/-- The bytes a late answer takes leave the table of sources canonical. -/
theorem State.Sound.discardLateAnswer_sources_wf {s : State} (h : s.Sound) (lost : Nat) :
    (s.discardLateAnswer lost).sources.wf = true := by
  unfold State.discardLateAnswer
  split
  · exact Sources.write_wf _ _ _ h.sourcesCanonical
  · exact h.sourcesCanonical

/-- Reset gives a sound state because it keeps a legal capacity and a canonical table (R160). -/
theorem State.Sound.resetBlock {s : State} (h : s.Sound) (lost : Nat) : (s.resetBlock lost).Sound :=
  ⟨h.legalCapacity, Nat.zero_le _, Nat.zero_le _, Nat.zero_le _, fun _ => rfl, by simp,
    h.discardLateAnswer_sources_wf lost, Nat.zero_le _⟩

/-- A block with nothing in progress needs only the first half of the invariant. -/
theorem State.Sound.inv_of_free {s : State} (h : s.Sound) (hf : s.inFlight = none) : s.Inv :=
  ⟨h, by simp [State.waitingIsPlausible, hf]⟩

theorem State.Inv.of_waiting {s : State} (h : s.Inv) {op : InFlight} (hf : s.inFlight = some op) :
    s.phase = .read ∧ s.nbits = 0 ∧ op.plausible = true := by
  have hw := h.waiting
  simpa [State.waitingIsPlausible, hf, and_assoc] using hw

theorem InFlight.plausible_readByte (left : Nat) (acc : Byte) :
    (InFlight.readByte left acc).plausible = true ↔ 1 ≤ left ∧ left ≤ 8 ∧ acc.toNat < 2 ^ (8 - left) :=
  decide_eq_true_iff

theorem State.Sound.inv_park {s : State} (h : s.Sound) (op : InFlight) (hp : s.phase = .read) (hn : s.nbits = 0)
    (ho : op.plausible = true) : (s.park op).Inv :=
  ⟨h.park op, by simp [State.waitingIsPlausible, hp, hn, ho]⟩

/-! ## The invariant along a step -/

theorem runReadBit_inv (s : State) (h : s.Sound) (hp : s.phase = .read) : (runReadBit s).Inv := by
  rcases runReadBit_cases s h with ⟨b, t, he, hpop⟩ | ⟨he, _⟩ | ⟨he, hn, _⟩ <;> rw [he]
  · exact (hpop.sound.respond _ _).inv_of_free rfl
  · exact State.Sound.inv_of_free (h.with_unread ..) rfl
  · exact h.inv_park _ hp hn rfl

/-- READ_BYTE with `left` bits still wanted: where it comes to wait, the accumulator holds the bits it has (R98). -/
theorem runReadByte_inv (left : Nat) (acc : Byte) (s : State) (h : s.Sound) (hp : s.phase = .read) (hl : left ≤ 8)
    (ha : acc.toNat < 2 ^ (8 - left)) : (runReadByte left acc s).Inv := by
  rcases runReadByte_cases left acc s h hl with ⟨bits, t, he, _, hk⟩ | ⟨he, _⟩ | ⟨bits, left', he, hb, hsum, hpos, _⟩ <;>
    rw [he]
  · exact (hk.sound.respond _ _).inv_of_free rfl
  · exact ((h.exhaust _).respond .endOfData 0).inv_of_free rfl
  · have hlen : bits.length = s.nbits := by rw [hb, State.pending_length]
    have hacc := accumulate_lt bits acc (8 - left) (by omega) ha
    rw [show 8 - left + bits.length = 8 - left' by omega] at hacc
    exact (h.exhaust s.requests).inv_park _ hp rfl ((InFlight.plausible_readByte _ _).mpr ⟨hpos, by omega, hacc⟩)

theorem resume_inv (op : InFlight) (s : State) (h : s.Inv) (hf : s.inFlight = some op) : (resume op s).Inv := by
  obtain ⟨hp, _, ho⟩ := h.of_waiting hf
  cases op with
  | readBit => exact runReadBit_inv s h.sound hp
  | readByte left acc =>
    obtain ⟨_, hl, ha⟩ := (InFlight.plausible_readByte left acc).mp ho
    exact runReadByte_inv left acc s h.sound hp hl ha

theorem runWord_inv (w : Word) (s t : State) (h : s.Sound) (hr : runWord w s = .next t) : t.Inv := by
  rcases runWord_cases w s with
    ⟨he, _⟩ | ⟨he, _⟩ | ⟨k, he, _⟩ | ⟨he, _⟩ | ⟨he, _, hp⟩ | ⟨he, _, hp⟩ <;>
    obtain rfl := Host.Outcome.next.inj (he.symm.trans hr)
  · exact h.misuse.inv_of_free rfl
  · exact (h.respond .ioUnavailable 0).inv_of_free rfl
  · exact ((h.bindTo k).respond .ok 0).inv_of_free rfl
  · exact (h.release.respond .ok 0).inv_of_free rfl
  · exact runReadBit_inv s h hp
  · exact runReadByte_inv 8 0 s h hp le_rfl (by decide)

/-- Writing a source keeps the invariant, whatever is written (log 3). -/
theorem State.Inv.write_source {s : State} (h : s.Inv) (k : Nat) (x : Source) :
    State.Inv { s with sources := s.sources.write k x } where
  sound := ⟨h.sound.legalCapacity, h.sound.countInRange, h.sound.cellsWritten, h.sound.cellsFit, h.sound.closedIsEmpty,
    h.sound.boundExactly, Sources.write_wf _ _ _ h.sound.sourcesCanonical, h.sound.fetchedCovers⟩
  waiting := h.waiting

/-- What is to come on the two channels into the machine is no part of the invariant. -/
theorem State.Inv.with_channels {s : State} (h : s.Inv) (commands : List Command) (inputs : List Input) :
    State.Inv { s with commands := commands, inputs := inputs } where
  sound := h.sound.with_unread ..
  waiting := h.waiting

theorem applyInput_inv (e : Input) (s t : State) (h : s.Inv) (ht : applyInput e s = .next t) : t.Inv := by
  rcases applyInput_cases e s t ht with ⟨c, _, rfl⟩ | ⟨lost, _, rfl⟩ | ⟨c, lost, _, rfl⟩ | ⟨k, x, _, _, rfl⟩
  · exact h.with_channels (s.commands ++ [c]) s.inputs
  · exact (h.sound.resetBlock lost).inv_of_free rfl
  · exact ((h.sound.interruptedIn c).resetBlock lost).inv_of_free rfl
  · exact h.write_source k x

/-- Settles O50, by what a step can do: each of its moves keeps the invariant. -/
theorem stepKeepsTheInvariant : Obligations.StepKeepsTheInvariant := by
  intro s t h hs
  rcases step_cases s t hs with ⟨op, hf, _, rfl⟩ | ⟨c, rest, _, _, hw⟩ | ⟨_, _, rfl⟩ | ⟨e, rest, _, _, he⟩
  · exact resume_inv op s h hf
  · exact runWord_inv c.word _ t (h.sound.accept c rest) hw
  · exact h
  · exact applyInput_inv e _ t (h.with_channels s.commands rest) he

/-- Settles O51: with nothing bound, buffered or listed, each clause holds at once. -/
theorem resetMeetsTheInvariant : Obligations.ResetMeetsTheInvariant :=
  have sound : State.reset.Sound :=
    ⟨by decide, Nat.zero_le _, Nat.zero_le _, Nat.zero_le _, fun _ => rfl, by decide, rfl, Nat.zero_le _⟩
  ⟨sound.inv_of_free rfl, rfl⟩

end Sys2Proof.Machine
end

section
/-! SUPPORT. Proofs of the statements of 10_state.md on the buffer, the pending sequence and the stream position (R21,
R25, R28, R99). -/

namespace Sys2Proof.Machine

/-! ## The pending sequence (R25) -/

theorem State.pending_of_empty (s : State) (hn : s.nbits = 0) : s.pending = [] := by
  rw [← List.length_eq_zero_iff, State.pending_length, hn]

/-- Settles O16, from the refill's and PopBit's rules for the pending sequence. -/
theorem bufferRefinesPending : Obligations.BufferRefinesPending :=
  ⟨State.pending_loadBuffer, fun s hn => ⟨popBit_of_bits s hn, s.pending_dropTop hn⟩, State.pending_of_empty⟩

/-! ## Stale cells (R21): a simulation between states that differ only there -/

/-- `t` is `s` but for buffer cells that hold no bit still to be delivered. -/
structure AgreeBelow (s t : State) : Prop where
  rest : t = { s with buf := t.buf }
  cells : ∀ i, i < s.nbits → t.cell i = s.cell i

namespace AgreeBelow

variable {s t : State}

theorem cfg (h : AgreeBelow s t) : t.cfg = s.cfg := (congrArg State.cfg h.rest :)
theorem phase (h : AgreeBelow s t) : t.phase = s.phase := (congrArg State.phase h.rest :)
theorem nbits (h : AgreeBelow s t) : t.nbits = s.nbits := (congrArg State.nbits h.rest :)
theorem src (h : AgreeBelow s t) : t.src = s.src := (congrArg State.src h.rest :)
theorem rsp (h : AgreeBelow s t) : t.rsp = s.rsp := (congrArg State.rsp h.rest :)
theorem inFlight (h : AgreeBelow s t) : t.inFlight = s.inFlight := (congrArg State.inFlight h.rest :)
theorem sources (h : AgreeBelow s t) : t.sources = s.sources := (congrArg State.sources h.rest :)
theorem responses (h : AgreeBelow s t) : t.responses = s.responses := (congrArg State.responses h.rest :)
theorem requests (h : AgreeBelow s t) : t.requests = s.requests := (congrArg State.requests h.rest :)
theorem srcIn (h : AgreeBelow s t) : t.srcIn = s.srcIn := (congrArg State.srcIn h.rest :)
theorem canAnswer (h : AgreeBelow s t) : t.canAnswer = s.canAnswer := (congrArg State.canAnswer h.rest :)
theorem boundSource (h : AgreeBelow s t) : t.boundSource = s.boundSource := (congrArg State.boundSource h.rest :)

theorem pending (h : AgreeBelow s t) : t.pending = s.pending := by
  rw [State.pending, State.pending, h.nbits]
  exact State.cellsBelow_congr s t _ h.cells

theorem topBit (h : AgreeBelow s t) (hn : s.nbits ≠ 0) : t.topBit = s.topBit := by
  rw [State.topBit, State.topBit, h.nbits]
  exact h.cells _ (by omega)

/-- An update that leaves the buffer alone, and adds no bit to it, keeps the agreement. -/
theorem map (h : AgreeBelow s t) (f : State → State) (hf : ∀ buf, f { s with buf := buf } = { f s with buf := buf })
    (hb : (f s).buf = s.buf) (hn : (f s).nbits ≤ s.nbits) : AgreeBelow (f s) (f t) := by
  have ht : f t = { f s with buf := t.buf } := (congrArg f h.rest).trans (hf t.buf)
  have hbuf : (f t).buf = t.buf := (congrArg State.buf ht :)
  refine ⟨by rw [hbuf]; exact ht, fun i hi => ?_⟩
  rw [State.cell_of_buf t (f t) i hbuf, State.cell_of_buf s (f s) i hb]
  exact h.cells i (hi.trans_le hn)

theorem respond (h : AgreeBelow s t) (st : Status) (d : Byte) : AgreeBelow (s.respond st d) (t.respond st d) :=
  h.map (State.respond st d) (fun _ => rfl) rfl le_rfl

theorem misuse (h : AgreeBelow s t) : AgreeBelow s.misuse t.misuse := h.map State.misuse (fun _ => rfl) rfl le_rfl

theorem park (h : AgreeBelow s t) (op : InFlight) : AgreeBelow (s.park op) (t.park op) :=
  h.map (State.park op) (fun _ => rfl) rfl le_rfl

theorem dropTop (h : AgreeBelow s t) : AgreeBelow s.dropTop t.dropTop :=
  h.map State.dropTop (fun _ => rfl) rfl (Nat.sub_le _ _)

theorem bindTo (h : AgreeBelow s t) (k : Nat) : AgreeBelow (s.bindTo k) (t.bindTo k) :=
  h.map (State.bindTo k) (fun _ => rfl) rfl (Nat.zero_le _)

theorem release (h : AgreeBelow s t) : AgreeBelow s.release t.release :=
  h.map State.release (fun _ => rfl) rfl (Nat.zero_le _)

theorem afterRequest (h : AgreeBelow s t) (max : Nat) : AgreeBelow (s.afterRequest max) (t.afterRequest max) := by
  refine h.map (State.afterRequest max) (fun buf => ?_) (afterRequest_buf max s) (afterRequest_nbits max s).le
  cases hs : s.src <;> simp [State.afterRequest, hs]

/-- A refill writes every cell up to its new count (R92), so the two buffers agree there. -/
theorem loadBuffer (h : AgreeBelow s t) (bytes : List Byte) : AgreeBelow (s.loadBuffer bytes) (t.loadBuffer bytes) := by
  refine ⟨congrArg (fun u : State => { u with buf := (t.loadBuffer bytes).buf, nbits := 8 * bytes.length }) h.rest,
    fun i hi => ?_⟩
  have hlen : i < (bitSeq bytes).length := by simpa using hi
  rw [State.cell_reverse (t.loadBuffer bytes) (bitSeq bytes) _ rfl i hlen,
    State.cell_reverse (s.loadBuffer bytes) (bitSeq bytes) _ rfl i hlen]

end AgreeBelow

/-- Two PopBits come to the same, with states that agree. -/
inductive PopsAgree : Pop → Pop → Prop where
  | bit (b : Bool) {s t : State} (h : AgreeBelow s t) : PopsAgree (.bit b s) (.bit b t)
  | fail {s t : State} (h : AgreeBelow s t) : PopsAgree (.fail s) (.fail t)
  | waiting : PopsAgree .waiting .waiting

/-- Two bit loops come to the same, with states that agree. -/
inductive GotsAgree : Got → Got → Prop where
  | done (v : Byte) {s t : State} (h : AgreeBelow s t) : GotsAgree (.done v s) (.done v t)
  | ended {s t : State} (h : AgreeBelow s t) : GotsAgree (.ended s) (.ended t)
  | waiting (left : Nat) (acc : Byte) {s t : State} (h : AgreeBelow s t) :
    GotsAgree (.waiting left acc s) (.waiting left acc t)

/-- PopBit on an empty buffer, from the answer of the source (R90, R91). -/
theorem popBit_of_empty (s : State) (hn : s.nbits = 0) (hc : s.canAnswer = true) :
    popBit s =
      if s.boundSource.answer s.cfg.capBytes = [] then .fail (s.afterRequest s.cfg.capBytes)
      else .bit ((s.afterRequest s.cfg.capBytes).loadBuffer (s.boundSource.answer s.cfg.capBytes)).topBit
        ((s.afterRequest s.cfg.capBytes).loadBuffer (s.boundSource.answer s.cfg.capBytes)).dropTop := by
  cases ha : s.boundSource.answer s.cfg.capBytes <;> simp [popBit, hn, refill, srcRead, hc, ha]

theorem popBit_agrees {s t : State} (h : AgreeBelow s t) : PopsAgree (popBit s) (popBit t) := by
  by_cases hn : s.nbits = 0
  · have hnt : t.nbits = 0 := h.nbits.trans hn
    cases hc : s.canAnswer with
    | false =>
      rw [popBit_of_stalled s hn hc, popBit_of_stalled t hnt (h.canAnswer.trans hc)]
      exact .waiting
    | true =>
      rw [popBit_of_empty s hn hc, popBit_of_empty t hnt (h.canAnswer.trans hc), h.boundSource, h.cfg]
      split
      · exact .fail (h.afterRequest _)
      · rename_i hne
        have hl := (h.afterRequest s.cfg.capBytes).loadBuffer (s.boundSource.answer s.cfg.capBytes)
        rw [hl.topBit (by simpa [← List.length_eq_zero_iff] using hne)]
        exact .bit _ hl.dropTop
  · rw [popBit_of_bits s hn, popBit_of_bits t (h.nbits.trans_ne hn), h.topBit hn]
    exact .bit _ h.dropTop

theorem takeBits_agrees (left : Nat) (acc : Byte) {s t : State} (h : AgreeBelow s t) :
    GotsAgree (takeBits left acc s) (takeBits left acc t) := by
  induction left generalizing acc s t with
  | zero => exact .done acc h
  | succ left ih =>
    have hp := popBit_agrees h
    simp only [takeBits]
    generalize popBit s = p at hp
    generalize popBit t = q at hp
    cases hp with
    | bit b h' => exact ih _ h'
    | fail h' => exact .ended h'
    | waiting => exact .waiting _ _ h

theorem runReadBit_agrees {s t : State} (h : AgreeBelow s t) : AgreeBelow (runReadBit s) (runReadBit t) := by
  have hp := popBit_agrees h
  unfold runReadBit
  generalize popBit s = p at hp
  generalize popBit t = q at hp
  cases hp with
  | bit b h' => exact h'.respond _ _
  | fail h' => exact h'.respond _ _
  | waiting => exact h.park _

theorem runReadByte_agrees (left : Nat) (acc : Byte) {s t : State} (h : AgreeBelow s t) :
    AgreeBelow (runReadByte left acc s) (runReadByte left acc t) := by
  have hg := takeBits_agrees left acc h
  unfold runReadByte
  generalize takeBits left acc s = p at hg
  generalize takeBits left acc t = q at hg
  cases hg with
  | done v h' => exact h'.respond _ _
  | ended h' => exact h'.respond _ _
  | waiting l a h' => exact h'.park _

/-- Two outcomes are next states that agree. -/
inductive OutcomesAgree : Host.Outcome State Fault Refusal → Host.Outcome State Fault Refusal → Prop where
  | next {s t : State} (h : AgreeBelow s t) : OutcomesAgree (.next s) (.next t)

theorem OutcomesAgree.agreeBelow {s t : State} (h : OutcomesAgree (.next s) (.next t)) : AgreeBelow s t := by
  cases h with
  | next h => exact h

theorem exec_agrees (i : Instr) {s t : State} (h : AgreeBelow s t) : OutcomesAgree (exec i s) (exec i t) := by
  cases i with
  | openSource =>
    simp only [exec, execOpenSource, sourceOperand, h.phase, h.srcIn]
    split
    · split
      · exact .next (h.respond _ _)
      · exact .next ((h.bindTo _).respond _ _)
    · exact .next h.misuse
  | readBit =>
    simp only [exec, execReadBit, h.phase]
    split
    · exact .next (runReadBit_agrees h)
    · exact .next h.misuse
  | readByte =>
    simp only [exec, execReadByte, h.phase]
    split
    · exact .next (runReadByte_agrees 8 0 h)
    · exact .next h.misuse
  | writeBit flag => exact .next h.misuse
  | writeByte b => exact .next h.misuse
  | close => exact .next (h.release.respond _ _)

theorem runWord_agrees (w : Word) {s t : State} (h : AgreeBelow s t) : OutcomesAgree (runWord w s) (runWord w t) := by
  unfold runWord
  cases decode w with
  | command i => exact exec_agrees i h
  | reserved => exact .next h.misuse

/-- Settles O18: states that agree below `nbits` stay so under every word, and all that is observed follows. -/
theorem staleCellsAreNeverRead : Obligations.StaleCellsAreNeverRead := by
  intro w s t t' buf' _ _ _ hcells ht ht'
  have hs : AgreeBelow s { s with buf := buf' } :=
    ⟨rfl, fun i hi => by simp only [State.cell, List.getD_eq_getElem?_getD, hcells i hi]⟩
  have hw := runWord_agrees w hs
  rw [ht, ht'] at hw
  have h : AgreeBelow t t' := hw.agreeBelow
  exact ⟨h.rsp, h.responses, h.nbits, h.pending, h.phase, h.src, h.sources, h.requests, h.inFlight⟩

/-! ## The stream position (R28, R99) -/

theorem State.stream_congr (s t : State) (hb : t.buf = s.buf) (hn : t.nbits = s.nbits) (hsrc : t.src = s.src)
    (hs : t.sources = s.sources) : t.stream = s.stream := by
  rw [State.stream, State.stream, State.pending_congr s t hb hn, State.boundSource_congr s t hsrc hs]

@[simp] theorem respond_stream (st : Status) (d : Byte) (s : State) : (s.respond st d).stream = s.stream :=
  State.stream_congr s _ rfl rfl rfl rfl

@[simp] theorem respond_position (st : Status) (d : Byte) (s : State) : (s.respond st d).position = s.position := rfl

@[simp] theorem State.deliverable_length (s : State) :
    s.deliverable.length = s.nbits + 8 * s.boundSource.supply.length := by
  simp [State.deliverable]

/-- `t` is `s` with `bits` gone from the front of the stream, and the position risen by their number. -/
structure Consumed (s : State) (bits : List Bool) (t : State) : Prop where
  position : t.position = s.position + bits.length
  stream : s.stream = bits ++ t.stream

theorem Consumed.stream_eq_drop {s t : State} {bits : List Bool} (h : Consumed s bits t) :
    t.stream = s.stream.drop (t.position - s.position) := by
  rw [h.stream, h.position, Nat.add_sub_cancel_left, List.drop_left]

/-- A failing read loses the buffered bits: its position is that of the end of the buffer (R96, R99). -/
theorem State.Sound.consumed_exhaust {s : State} (h : s.Sound) (reqs : List Request) :
    Consumed s s.pending { s with nbits := 0, requests := reqs } where
  position := by
    have := h.fetchedCovers
    simp only [State.position, State.pending_length]
    omega
  stream := by
    rw [State.stream, State.stream, State.pending_of_empty { s with nbits := 0, requests := reqs } rfl, List.nil_append]
    rfl

theorem runReadBit_consumed (s : State) (h : s.Sound) (hc : s.canAnswer = true) :
    ∃ bits, Consumed s bits (runReadBit s) ∧ bits.length = if s.deliverable = [] then 0 else 1 := by
  rcases runReadBit_cases s h with ⟨b, t, he, hpop⟩ | ⟨he, hn, hs, _⟩ | ⟨_, _, hc'⟩
  · refine ⟨[b], ⟨?_, ?_⟩, ?_⟩
    · rw [he]; exact hpop.position
    · rw [he, respond_stream]; exact hpop.stream
    · simp [hpop.deliverable]
  · have hd : s.deliverable = [] := by simp [← List.length_eq_zero_iff, hn, hs]
    refine ⟨[], ⟨?_, ?_⟩, by simp [hd]⟩
    · rw [he]; rfl
    · rw [he, List.nil_append]; symm; exact State.stream_congr s _ rfl rfl rfl rfl
  · simp [hc] at hc'

theorem runReadByte_consumed (s : State) (h : s.Sound) (hc : s.canAnswer = true) :
    ∃ bits, Consumed s bits (runReadByte 8 0 s) ∧
      bits.length = if s.deliverable.length < 8 then s.nbits else 8 := by
  rcases runReadByte_cases 8 0 s h le_rfl with ⟨bits, t, he, hlen, hk⟩ | ⟨he, hn, hs, _⟩ | ⟨_, _, _, _, _, _, hc'⟩
  · have hd : ¬ s.deliverable.length < 8 := by
      rw [hk.deliverable, List.length_append, hlen]; omega
    refine ⟨bits, ⟨?_, ?_⟩, by rw [if_neg hd, hlen]⟩
    · rw [he]; exact hk.position
    · rw [he, respond_stream]; exact hk.stream
  · have hd : s.deliverable.length < 8 := by simpa [hs] using hn
    have hx := h.consumed_exhaust (s.requests ++ [⟨s.cfg.capBytes, 0⟩])
    refine ⟨s.pending, ⟨?_, ?_⟩, by rw [if_pos hd, State.pending_length]⟩
    · rw [he]; exact hx.position
    · rw [he, State.raise, respond_stream]; exact hx.stream
  · simp [hc] at hc'

/-- Settles O26: both reads only take bits from the front of the stream, and the position counts them. -/
theorem positionCountsDeliveredBits : Obligations.PositionCountsDeliveredBits := by
  intro s h hp hc
  obtain ⟨bits, hbit, hlen⟩ := runReadBit_consumed s h.sound hc
  obtain ⟨byteBits, hbyte, hlen'⟩ := runReadByte_consumed s h.sound hc
  exact ⟨⟨_, execReadBit_read s hp, hlen ▸ hbit.position, hbit.stream_eq_drop⟩,
    ⟨_, execReadByte_read s hp, hlen' ▸ hbyte.position, hbyte.stream_eq_drop⟩⟩

end Sys2Proof.Machine
end

section
/-! SUPPORT. Proofs of the statements of 10_state.md on what a step does to the phase, the responses and the requests
(R20, R24, R31, R32, R52, R60, R140, R148, R169), and on placing a word (log 15). -/

namespace Sys2Proof.Machine

/-! ## The outside world (R31, R52) -/

/-- Settles O47: what is not reset only sends a command or writes a source. -/
theorem outsideLeavesTheBlockAlone : Obligations.OutsideLeavesTheBlockAlone := by
  intro e s t hr h
  rcases applyInput_cases e s t h with ⟨c, _, rfl⟩ | ⟨lost, rfl, _⟩ | ⟨c, lost, rfl, _⟩ | ⟨k, x, _, _, rfl⟩
  · exact ⟨rfl, rfl, rfl, rfl, rfl, rfl, rfl, State.pending_congr s _ rfl rfl⟩
  · simp [Input.isReset] at hr
  · simp [Input.isReset] at hr
  · exact ⟨rfl, rfl, rfl, rfl, rfl, rfl, rfl, State.pending_congr s _ rfl rfl⟩

/-! ## Legal responses (R24, R65, R66, R140) -/

theorem State.responsesLegal_iff (s : State) :
    s.responsesLegal = true ↔
      (∀ r ∈ s.responses, r.legal = true) ∧ (s.rsp = none ∨ s.rsp = s.responses.getLast?) := by
  simp [State.responsesLegal]

theorem responsesLegal_congr {s t : State} (h : s.responsesLegal = true) (hrs : t.responses = s.responses)
    (hr : t.rsp = s.rsp) : t.responsesLegal = true := by
  rwa [State.responsesLegal, hrs, hr]

/-- Reset leaves the record of responses, with no response pending (R160). -/
theorem responsesLegal_of_rsp_none {s t : State} (h : s.responsesLegal = true) (hrs : t.responses = s.responses)
    (hr : t.rsp = none) : t.responsesLegal = true := by
  rw [State.responsesLegal_iff] at h ⊢
  exact ⟨hrs ▸ h.left, .inl hr⟩

theorem responsesLegal_respond {s : State} (h : s.responsesLegal = true) (st : Status) (d : Byte)
    (hl : Response.legal ⟨st, d⟩ = true) : (s.respond st d).responsesLegal = true := by
  rw [State.responsesLegal_iff] at h ⊢
  refine ⟨fun r hr => ?_, .inr (by simp)⟩
  rcases List.mem_append.mp hr with hr | hr
  · exact h.left r hr
  · rw [List.mem_singleton.mp hr]; exact hl

theorem legal_ok (d : Byte) : Response.legal ⟨.ok, d⟩ = true := by simp [Response.legal]

theorem ReadEnds.responsesLegal {s t : State} (he : ReadEnds s t) (h : s.responsesLegal = true) :
    t.responsesLegal = true := by
  cases he with
  | answered u st d hu legal =>
    refine responsesLegal_respond (responsesLegal_congr h hu.responses hu.rsp) st d ?_
    rcases legal with rfl | ⟨rfl, rfl⟩
    · exact legal_ok d
    · rfl
  | waits u op hu => exact responsesLegal_congr h hu.responses hu.rsp

theorem runWord_responsesLegal (w : Word) (s t : State) (h : s.responsesLegal = true) (hr : runWord w s = .next t) :
    t.responsesLegal = true := by
  rcases runWord_cases w s with ⟨he, _⟩ | ⟨he, _⟩ | ⟨k, he, _⟩ | ⟨he, _⟩ | ⟨he, _⟩ | ⟨he, _⟩ <;>
    obtain rfl := Host.Outcome.next.inj (he.symm.trans hr)
  · exact responsesLegal_respond h .misusedStream 0 rfl
  · exact responsesLegal_respond h .ioUnavailable 0 rfl
  · exact responsesLegal_respond h .ok 0 rfl
  · exact responsesLegal_respond h .ok 0 rfl
  · exact (runReadBit_ends s).responsesLegal h
  · exact (runReadByte_ends 8 0 s).responsesLegal h

theorem applyInput_responsesLegal (e : Input) (s t : State) (h : s.responsesLegal = true)
    (ht : applyInput e s = .next t) : t.responsesLegal = true := by
  rcases applyInput_cases e s t ht with ⟨c, _, rfl⟩ | ⟨lost, _, rfl⟩ | ⟨c, lost, _, rfl⟩ | ⟨k, x, _, _, rfl⟩
  · exact h
  · exact responsesLegal_of_rsp_none h rfl rfl
  · exact responsesLegal_of_rsp_none h (by simp) rfl
  · exact h

/-- Settles O52, by what a step can do: a response is added with the register, or neither changes, or reset clears it. -/
theorem responsesStayLegal : Obligations.ResponsesStayLegal := by
  intro s t h hs
  rcases step_cases s t hs with ⟨op, _, _, rfl⟩ | ⟨c, rest, _, _, hw⟩ | ⟨_, _, rfl⟩ | ⟨e, rest, _, _, he⟩
  · exact (resume_ends op s).responsesLegal h
  · exact runWord_responsesLegal c.word (s.accept c rest) t h hw
  · exact h
  · exact applyInput_responsesLegal e { s with inputs := rest } t h he

/-! ## The phase (R20, R32, R148) -/

theorem ReadEnds.phase_eq {s t : State} (h : ReadEnds s t) : t.phase = s.phase := by
  cases h with
  | answered u st d hu _ => exact hu.phase
  | waits u op hu => exact hu.phase

/-- A misuse changes the phase only from READ to FAULT (R146). -/
theorem Phase.afterMisuse_cases (p : Phase) : p.afterMisuse = p ∨ (p = .read ∧ p.afterMisuse = .fault) := by
  cases p <;> simp [Phase.afterMisuse]

/-- How a command word can change the phase (R149): not at all, by a misuse, by OPEN, or by CLOSE. -/
theorem runWord_phase_cases (w : Word) (s t : State) (h : runWord w s = .next t) :
    t.phase = s.phase ∨
    (t.phase = .fault ∧ s.phase = .read ∧ t.rsp = some ⟨.misusedStream, 0⟩) ∨
    (t.phase = .read ∧ s.phase = .closed ∧ decode w = .command .openSource ∧ s.srcIn.isSome = true) ∨
    (t.phase = .closed ∧ decode w = .command .close) := by
  rcases runWord_cases w s with
    ⟨he, _⟩ | ⟨he, _⟩ | ⟨k, he, hd, hp, hk⟩ | ⟨he, hd⟩ | ⟨he, _⟩ | ⟨he, _⟩ <;>
    obtain rfl := Host.Outcome.next.inj (he.symm.trans h)
  · rcases s.phase.afterMisuse_cases with hp | ⟨hp, hf⟩
    · exact .inl hp
    · exact .inr (.inl ⟨hf, hp, rfl⟩)
  · exact .inl rfl
  · exact .inr (.inr (.inl ⟨rfl, hp, hd, Option.isSome_iff_exists.mpr ⟨k, hk⟩⟩))
  · exact .inr (.inr (.inr ⟨rfl, hd⟩))
  · exact .inl (runReadBit_ends s).phase_eq
  · exact .inl (runReadByte_ends 8 0 s).phase_eq

theorem applyInput_phase_cases (e : Input) (s t : State) (h : applyInput e s = .next t) :
    t.phase = s.phase ∨ (t.phase = .closed ∧ e.isReset = true) := by
  rcases applyInput_cases e s t h with ⟨c, _, rfl⟩ | ⟨lost, rfl, rfl⟩ | ⟨c, lost, rfl, rfl⟩ | ⟨k, x, _, _, rfl⟩
  · exact .inl rfl
  · exact .inr ⟨rfl, rfl⟩
  · exact .inr ⟨rfl, rfl⟩
  · exact .inl rfl

/-- Settles O53, from the ways a word and an outside doing can change the phase. -/
theorem phaseChangesOnlyByItsCauses : Obligations.PhaseChangesOnlyByItsCauses := by
  intro s t _ hs hne
  rcases step_cases s t hs with ⟨op, _, _, rfl⟩ | ⟨c, rest, hf, hc, hw⟩ | ⟨_, _, rfl⟩ | ⟨e, rest, ho, hi, he⟩
  · exact absurd (resume_ends op s).phase_eq hne
  · rcases runWord_phase_cases c.word (s.accept c rest) t hw with hp | ⟨hp, hr, hm⟩ | ⟨hp, hcl, hd, hk⟩ | ⟨hp, hd⟩
    · exact absurd hp hne
    · simpa [hp, hm] using hr
    · simpa [hp, hf, hc, hd] using And.intro hcl hk
    · simp [hp, hf, hc, hd]
  · exact absurd rfl hne
  · rcases applyInput_phase_cases e { s with inputs := rest } t he with hp | ⟨hp, hr⟩
    · exact absurd hp hne
    · simp [hp, ho, hi, hr]

/-! ## One response, one request (R24, R60, R169) -/

/-- At most one response more, which is then the register's, with nothing left in progress (R24, R60). -/
def AtMostOneResponse (s t : State) : Prop :=
  t.responses = s.responses ∨ ∃ r : Response, t.responses = s.responses ++ [r] ∧ t.rsp = some r ∧ t.inFlight = none

/-- At most one answered request more, for CAP_BYTES bytes (R91, R169). -/
def AtMostOneRequest (s t : State) : Prop :=
  t.requests = s.requests ∨ ∃ n : Nat, n ≤ s.cfg.capBytes ∧ t.requests = s.requests ++ [⟨s.cfg.capBytes, n⟩]

theorem atMostOneResponse_respond (s : State) (st : Status) (d : Byte) : AtMostOneResponse s (s.respond st d) :=
  .inr ⟨⟨st, d⟩, rfl, rfl, rfl⟩

theorem ReadEnds.atMostOneResponse {s t : State} (h : ReadEnds s t) : AtMostOneResponse s t := by
  cases h with
  | answered u st d hu _ => exact .inr ⟨⟨st, d⟩, by rw [respond_responses, hu.responses], rfl, rfl⟩
  | waits u op hu => exact .inl hu.responses

theorem runWord_atMostOneResponse (w : Word) (s t : State) (h : runWord w s = .next t) : AtMostOneResponse s t := by
  rcases runWord_cases w s with ⟨he, _⟩ | ⟨he, _⟩ | ⟨k, he, _⟩ | ⟨he, _⟩ | ⟨he, _⟩ | ⟨he, _⟩ <;>
    obtain rfl := Host.Outcome.next.inj (he.symm.trans h)
  · exact atMostOneResponse_respond s _ _
  · exact atMostOneResponse_respond s _ _
  · exact atMostOneResponse_respond (s.bindTo k) _ _
  · exact atMostOneResponse_respond s.release _ _
  · exact (runReadBit_ends s).atMostOneResponse
  · exact (runReadByte_ends 8 0 s).atMostOneResponse

theorem Took.atMostOneRequest {s t : State} {bits : List Bool} (h : Took s bits t) : AtMostOneRequest s t := by
  rcases h.source with ⟨_, rfl⟩ | ⟨_, _, n, _, hn, _, hr, _⟩
  · exact .inl rfl
  · exact .inr ⟨n, hn, hr⟩

theorem Popped.atMostOneRequest {s t : State} {b : Bool} (h : Popped s b t) : AtMostOneRequest s t :=
  (Took.cons h (Took.none t h.sound) (Nat.zero_le 7)).atMostOneRequest

theorem runReadBit_atMostOneRequest (s : State) (h : s.Sound) : AtMostOneRequest s (runReadBit s) := by
  rcases runReadBit_cases s h with ⟨b, t, he, hpop⟩ | ⟨he, _⟩ | ⟨he, _⟩ <;> rw [he]
  · exact hpop.atMostOneRequest
  · exact .inr ⟨0, Nat.zero_le _, rfl⟩
  · exact .inl rfl

theorem runReadByte_atMostOneRequest (left : Nat) (acc : Byte) (s : State) (h : s.Sound) (hl : left ≤ 8) :
    AtMostOneRequest s (runReadByte left acc s) := by
  rcases runReadByte_cases left acc s h hl with ⟨bits, t, he, _, hk⟩ | ⟨he, _⟩ | ⟨bits, left', he, _⟩ <;> rw [he]
  · exact hk.atMostOneRequest
  · exact .inr ⟨0, Nat.zero_le _, rfl⟩
  · exact .inl rfl

theorem resume_atMostOneRequest (op : InFlight) (s : State) (h : s.Inv) (hf : s.inFlight = some op) :
    AtMostOneRequest s (resume op s) := by
  obtain ⟨_, _, ho⟩ := h.of_waiting hf
  cases op with
  | readBit => exact runReadBit_atMostOneRequest s h.sound
  | readByte left acc =>
    obtain ⟨_, hl, _⟩ := (InFlight.plausible_readByte left acc).mp ho
    exact runReadByte_atMostOneRequest left acc s h.sound hl

theorem runWord_atMostOneRequest (w : Word) (s t : State) (h : s.Sound) (hr : runWord w s = .next t) :
    AtMostOneRequest s t := by
  rcases runWord_cases w s with ⟨he, _⟩ | ⟨he, _⟩ | ⟨k, he, _⟩ | ⟨he, _⟩ | ⟨he, _⟩ | ⟨he, _⟩ <;>
    obtain rfl := Host.Outcome.next.inj (he.symm.trans hr)
  · exact .inl rfl
  · exact .inl rfl
  · exact .inl rfl
  · exact .inl rfl
  · exact runReadBit_atMostOneRequest s h
  · exact runReadByte_atMostOneRequest 8 0 s h le_rfl

/-- The outside world adds nothing to the record of the channels (R160). -/
theorem applyInput_keeps_record (e : Input) (s t : State) (h : applyInput e s = .next t) :
    t.responses = s.responses ∧ t.requests = s.requests := by
  rcases applyInput_cases e s t h with ⟨c, _, rfl⟩ | ⟨lost, _, rfl⟩ | ⟨c, lost, _, rfl⟩ | ⟨k, x, _, _, rfl⟩
  · exact ⟨rfl, rfl⟩
  · exact ⟨rfl, rfl⟩
  · exact ⟨interruptedIn_responses c s, interruptedIn_requests c s⟩
  · exact ⟨rfl, rfl⟩

/-- Settles O55, by what a step can do: only a read makes a request, and it ends in one answer or none. -/
theorem oneResponseOneRequestAStep : Obligations.OneResponseOneRequestAStep := by
  intro s t h hs
  rcases step_cases s t hs with ⟨op, hf, _, rfl⟩ | ⟨c, rest, _, _, hw⟩ | ⟨_, _, rfl⟩ | ⟨e, rest, _, _, he⟩
  · exact ⟨(resume_ends op s).atMostOneResponse, resume_atMostOneRequest op s h hf⟩
  · exact ⟨runWord_atMostOneResponse c.word (s.accept c rest) t hw,
      runWord_atMostOneRequest c.word (s.accept c rest) t (h.sound.accept c rest) hw⟩
  · exact ⟨.inl rfl, .inl rfl⟩
  · obtain ⟨hresp, hreq⟩ := applyInput_keeps_record e { s with inputs := rest } t he
    exact ⟨.inl hresp, .inl hreq⟩

/-! ## Placing a word (log 15), and the state after reset (R32, R160) -/

theorem runWord_of_command {w : Word} {i : Instr} (s : State) (hd : decode w = .command i) :
    runWord w s = exec i s := by
  simp [runWord, hd]

theorem decode_of_command? {w : Word} {i : Instr} (h : (decode w).command? = some i) : decode w = .command i := by
  cases hd : decode w with
  | command j => simpa [hd, Decoded.command?] using h
  | reserved => simp [hd, Decoded.command?] at h

/-- Settles O37: the word placed stands first on the channel of a free block, with the side operand it had. -/
theorem placedWordRunsNext : Obligations.PlacedWordRunsNext := by
  intro s w i _ hi
  have hd : decode (BitVec.ofNat 16 (w % 2 ^ 16)) = .command i := decode_of_command? (by simpa [decodeTableWord] using hi)
  exact runWord_of_command { s with inFlight := none } hd

/-- Settles O45: the values of the reset state. -/
theorem resetStateOfTheSpec : Obligations.ResetStateOfTheSpec :=
  ⟨rfl, rfl, rfl, rfl, rfl, rfl, rfl⟩

end Sys2Proof.Machine
end

section
/-! SUPPORT. Rules for a read, started or waiting, that the proofs of the statements of 20_memory.md share (R42, R45,
R46, R94, R95). -/

namespace Sys2Proof.Machine

/-! ## READ_BYTE's accumulator as bits (R46, R94) -/

theorem shiftIn_getLsbD_zero (v : Byte) (b : Bool) : (shiftIn v b).getLsbD 0 = b := by
  cases b <;> simp [shiftIn, zext8]

theorem shiftIn_getLsbD_succ (v : Byte) (b : Bool) (i : Nat) (hi : i + 1 < 8) :
    (shiftIn v b).getLsbD (i + 1) = v.getLsbD i := by
  cases b <;> simp [shiftIn, zext8, BitVec.getLsbD_eq_getElem, hi, (Nat.lt_succ_self i).trans hi]

/-- The bits shifted in stand in the accumulator in order, the last one in bit 0. -/
theorem accumulate_getLsbD (bits : List Bool) (acc : Byte) (k : Nat) (hlen : bits.length ≤ 8) (hk : k < bits.length) :
    bits[k]? = some ((accumulate acc bits).getLsbD (bits.length - 1 - k)) := by
  induction bits using List.reverseRecOn with
  | nil => simp at hk
  | append_singleton l b ih =>
    simp only [List.length_append, List.length_singleton] at hlen hk ⊢
    rw [accumulate_append, accumulate_cons, accumulate_nil, Nat.add_sub_cancel]
    rcases Nat.lt_or_ge k l.length with hlt | hge
    · rw [List.getElem?_append_left hlt, ih (by omega) hlt,
        show l.length - k = l.length - 1 - k + 1 by omega, shiftIn_getLsbD_succ _ _ _ (by omega)]
    · obtain rfl : k = l.length := by omega
      rw [Nat.sub_self, shiftIn_getLsbD_zero, List.getElem?_concat_length]

/-- Eight bits shifted in are the bits of the byte. -/
theorem bitsMsb_accumulate (bits : List Bool) (acc : Byte) (hlen : bits.length = 8) :
    bitsMsb (accumulate acc bits) = bits := by
  apply List.ext_getElem? fun k => ?_
  rcases Nat.lt_or_ge k 8 with hk | hk
  · rw [bitsMsb_getElem? _ k hk, accumulate_getLsbD bits acc k hlen.le (by omega), hlen]
  · rw [List.getElem?_eq_none (by rw [bitsMsb_length]; exact hk), List.getElem?_eq_none (by omega)]

theorem bitsMsb_injective : Function.Injective bitsMsb := by
  intro a b h
  refine BitVec.eq_of_getLsbD_eq fun i hi => ?_
  have hbit : (bitsMsb a)[7 - i]? = (bitsMsb b)[7 - i]? := by rw [h]
  rw [bitsMsb_getElem? a _ (by omega), bitsMsb_getElem? b _ (by omega), Option.some.injEq] at hbit
  rwa [show 7 - (7 - i) = i by omega] at hbit

/-- The byte whose bits are shifted in is what comes out, whatever the accumulator held. -/
theorem accumulate_bitsMsb (acc v : Byte) : accumulate acc (bitsMsb v) = v :=
  bitsMsb_injective (bitsMsb_accumulate _ acc (bitsMsb_length v))

/-! ## What is deliverable -/

theorem State.deliverable_congr (s t : State) (hb : t.buf = s.buf) (hn : t.nbits = s.nbits) (hsrc : t.src = s.src)
    (hs : t.sources = s.sources) : t.deliverable = s.deliverable := by
  rw [State.deliverable, State.deliverable, State.pending_congr s t hb hn, State.boundSource_congr s t hsrc hs]

@[simp] theorem respond_deliverable (st : Status) (d : Byte) (s : State) :
    (s.respond st d).deliverable = s.deliverable :=
  State.deliverable_congr s _ rfl rfl rfl rfl

@[simp] theorem misuse_deliverable (s : State) : s.misuse.deliverable = s.deliverable :=
  State.deliverable_congr s _ rfl rfl rfl rfl

@[simp] theorem respond_canAnswer (st : Status) (d : Byte) (s : State) : (s.respond st d).canAnswer = s.canAnswer := rfl

theorem State.deliverable_of_nothing_left (s : State) (hs : s.boundSource.supply = []) :
    s.deliverable = s.pending := by
  rw [State.deliverable, hs, bitSeq_nil, List.append_nil]

theorem State.deliverable_eq_nil (s : State) (hn : s.nbits = 0) (hs : s.boundSource.supply = []) :
    s.deliverable = [] := by
  rw [State.deliverable_of_nothing_left s hs, State.pending_of_empty s hn]

theorem State.with_nbits_of_empty (s : State) (hn : s.nbits = 0) : { s with nbits := 0 } = s := by
  obtain ⟨⟩ := s
  obtain rfl := hn
  rfl

/-! ## A read command as a command in progress

READ_BIT and READ_BYTE differ in how many bits they want; the byte they answer is the accumulator of those bits. -/

/-- The bits still wanted. -/
def InFlight.wanted : InFlight → Nat
  | .readBit => 1
  | .readByte left _ => left

/-- The accumulator the bits still wanted are shifted into. -/
def InFlight.gathered : InFlight → Byte
  | .readBit => 0
  | .readByte _ acc => acc

/-- What is left to do once some of the bits have come, but not all. -/
def InFlight.afterBits (bits : List Bool) : InFlight → InFlight
  | .readBit => .readBit
  | .readByte left acc => .readByte (left - bits.length) (accumulate acc bits)

theorem InFlight.wanted_of_plausible {op : InFlight} (h : op.plausible = true) : 1 ≤ op.wanted ∧ op.wanted ≤ 8 := by
  cases op with
  | readBit => exact ⟨le_rfl, by decide⟩
  | readByte left acc =>
    obtain ⟨hpos, hle, _⟩ := (InFlight.plausible_readByte left acc).mp h
    exact ⟨hpos, hle⟩

/-- A read command in READ is a command in progress that has no bit yet. -/
theorem exec_read_eq_resume {i : Instr} (hi : i = .readBit ∨ i = .readByte) :
    ∃ op : InFlight, op.plausible = true ∧ ∀ s : State, s.phase = .read → exec i s = .next (resume op s) := by
  rcases hi with rfl | rfl
  · exact ⟨.readBit, rfl, execReadBit_read⟩
  · exact ⟨.readByte 8 0, rfl, execReadByte_read⟩

/-- Everything a read can come to (R94, R95): it has its bits and answers the byte they make, or it fails with the
buffered bits lost (R96), or it waits with the buffered bits gathered (R42). -/
theorem resume_cases (op : InFlight) (s : State) (h : s.Sound) (hw : op.wanted ≤ 8) :
    (∃ bits t, resume op s = t.respond .ok (accumulate op.gathered bits) ∧ bits.length = op.wanted ∧ Took s bits t) ∨
    (resume op s = State.raise .endOfData { s with nbits := 0, requests := s.requests ++ [⟨s.cfg.capBytes, 0⟩] } ∧
      s.nbits < op.wanted ∧ s.boundSource.supply = [] ∧ s.canAnswer = true) ∨
    (resume op s = State.park (op.afterBits s.pending) { s with nbits := 0 } ∧ s.nbits < op.wanted ∧
      s.canAnswer = false) := by
  cases op with
  | readBit =>
    rcases runReadBit_cases s h with ⟨b, t, he, hpop⟩ | ⟨he, hn, hs, hc⟩ | ⟨he, hn, hc⟩
    · refine .inl ⟨[b], t, ?_, rfl, Took.cons hpop (Took.none t hpop.sound) (Nat.zero_le 7)⟩
      have hacc : shiftIn 0 b = zext8 b := by cases b <;> rfl
      exact he.trans (by rw [← hacc]; rfl)
    · refine .inr (.inl ⟨he.trans ?_, hn.trans_lt Nat.one_pos, hs, hc⟩)
      rw [← State.with_nbits_of_empty { s with requests := s.requests ++ [⟨s.cfg.capBytes, 0⟩] } hn]
    · refine .inr (.inr ⟨he.trans ?_, hn.trans_lt Nat.one_pos, hc⟩)
      rw [State.with_nbits_of_empty s hn]
      rfl
  | readByte left acc =>
    rcases runReadByte_cases left acc s h hw with ⟨bits, t, hk⟩ | hk | ⟨bits, left', he, rfl, hsum, hpos, hc⟩
    · exact .inl ⟨bits, t, hk⟩
    · exact .inr (.inl hk)
    · refine .inr (.inr ⟨he.trans ?_, by simp only [InFlight.wanted]; omega, hc⟩)
      rw [InFlight.afterBits, State.pending_length, show left - s.nbits = left' by omega]

/-- A read with all its bits to be had, buffered or from a source that answers, is answered with them (R94, R95). -/
theorem resume_of_deliverable (op : InFlight) (s : State) (h : s.Sound) (hw : op.wanted ≤ 8)
    (ha : op.wanted ≤ s.nbits ∨ s.canAnswer = true) (bits rest : List Bool) (hd : s.deliverable = bits ++ rest)
    (hlen : bits.length = op.wanted) :
    ∃ t, resume op s = t.respond .ok (accumulate op.gathered bits) ∧ Took s bits t ∧ t.deliverable = rest := by
  rcases resume_cases op s h hw with ⟨bits', t, he, hlen', hk⟩ | ⟨_, hn, hs, _⟩ | ⟨_, hn, hc⟩
  · obtain ⟨rfl, hrest⟩ := List.append_inj (hd.symm.trans hk.deliverable) (hlen.trans hlen'.symm)
    exact ⟨t, he, hk, hrest.symm⟩
  · have : s.deliverable.length = s.nbits := by rw [State.deliverable_of_nothing_left s hs, State.pending_length]
    rw [hd, List.length_append] at this
    omega
  · rcases ha with ha | ha
    · omega
    · simp [hc] at ha

/-- A read fails where the source answers and nothing is left (R41, R97). -/
theorem resume_of_nothing_deliverable (op : InFlight) (s : State) (h : s.Sound) (hw : 1 ≤ op.wanted ∧ op.wanted ≤ 8)
    (ha : s.canAnswer = true) (hd : s.deliverable = []) :
    resume op s = State.raise .endOfData { s with nbits := 0, requests := s.requests ++ [⟨s.cfg.capBytes, 0⟩] } := by
  rcases resume_cases op s h hw.2 with ⟨bits, t, _, hlen, hk⟩ | ⟨he, _⟩ | ⟨_, _, hc⟩
  · have := hk.deliverable
    rw [hd, List.nil_eq, List.append_eq_nil_iff] at this
    simp [this.1] at hlen
    omega
  · exact he
  · simp [hc] at ha

end Sys2Proof.Machine
end

section
/-! SUPPORT. Proof of the statement of 20_memory.md on runs within one binding (R28, R45, R99): every step takes bits from
the front of the stream, and none elsewhere. -/

namespace Sys2Proof.Machine

/-! ## Rules for what is consumed -/

theorem Consumed.nothing {s t : State} (hp : t.position = s.position) (hs : t.stream = s.stream) : Consumed s [] t :=
  ⟨hp, hs.symm⟩

theorem Consumed.trans {s t u : State} {front next : List Bool} (h : Consumed s front t) (k : Consumed t next u) :
    Consumed s (front ++ next) u where
  position := by rw [k.position, h.position, List.length_append, Nat.add_assoc]
  stream := by rw [h.stream, k.stream, List.append_assoc]

theorem resume_consumed (op : InFlight) (s : State) (h : s.Sound) (hw : op.wanted ≤ 8) :
    ∃ bits, Consumed s bits (resume op s) := by
  rcases resume_cases op s h hw with ⟨bits, t, he, _, hk⟩ | ⟨he, _⟩ | ⟨he, _⟩ <;> rw [he]
  · exact ⟨bits, hk.position, by rw [respond_stream]; exact hk.stream⟩
  · have hx := h.consumed_exhaust (s.requests ++ [⟨s.cfg.capBytes, 0⟩])
    exact ⟨s.pending, hx.position, hx.stream⟩
  · have hx := h.consumed_exhaust s.requests
    exact ⟨s.pending, hx.position, hx.stream⟩

/-- A command word that leaves a source bound only takes bits from the front of the stream. -/
theorem runWord_consumed (w : Word) (s t : State) (h : s.Sound) (hb : s.src.isSome = true) (hr : runWord w s = .next t)
    (ht : t.src.isSome = true) : ∃ bits, Consumed s bits t := by
  have hopen : s.phase ≠ .closed := h.boundExactly.mp hb
  rcases runWord_cases w s with
    ⟨he, _⟩ | ⟨_, _, hp, _⟩ | ⟨_, _, _, hp, _⟩ | ⟨he, _⟩ | ⟨he, _⟩ | ⟨he, _⟩
  · obtain rfl := Host.Outcome.next.inj (he.symm.trans hr)
    exact ⟨[], .nothing rfl (State.stream_congr s _ rfl rfl rfl rfl)⟩
  · exact absurd hp hopen
  · exact absurd hp hopen
  · obtain rfl := Host.Outcome.next.inj (he.symm.trans hr)
    simp at ht
  · obtain rfl := Host.Outcome.next.inj (he.symm.trans hr)
    exact resume_consumed .readBit s h (by decide)
  · obtain rfl := Host.Outcome.next.inj (he.symm.trans hr)
    exact resume_consumed (.readByte 8 0) s h le_rfl

/-- Writing a source keeps the stream where the bytes of the bound source stay (R163). -/
theorem State.stream_write_source (s : State) (hwf : s.sources.wf = true) (k : Nat) (x : Source)
    (hx : s.src = some k → x.remaining = (s.sources.read k).remaining) :
    State.stream { s with sources := s.sources.write k x } = s.stream := by
  have hrem : (State.boundSource { s with sources := s.sources.write k x }).remaining = s.boundSource.remaining := by
    cases hs : s.src with
    | none => simp [State.boundSource, hs]
    | some h =>
      rcases eq_or_ne h k with rfl | hne
      · simp [State.boundSource, hs, Sources.read_write_same _ _ _ hwf, hx hs]
      · simp [State.boundSource, hs, Sources.read_write_other _ _ _ _ hne]
  rw [State.stream, State.stream, hrem, State.pending_congr s { s with sources := s.sources.write k x } rfl rfl]

/-- What the outside world does takes nothing from the stream while the binding lasts. -/
theorem applyInput_consumed (e : Input) (s t : State) (h : s.Sound) (he : applyInput e s = .next t)
    (ht : t.src.isSome = true) : Consumed s [] t := by
  rcases applyInput_cases e s t he with ⟨c, _, rfl⟩ | ⟨lost, _, rfl⟩ | ⟨c, lost, _, rfl⟩ | ⟨k, x, _, hx, rfl⟩
  · exact .nothing rfl (State.stream_congr s _ rfl rfl rfl rfl)
  · simp at ht
  · simp at ht
  · exact .nothing rfl (s.stream_write_source h.sourcesCanonical k x hx)

/-- One step within a binding only takes bits from the front of the stream. -/
theorem step_consumed (s t : State) (h : s.Inv) (hb : s.src.isSome = true) (hs : step s = .next t)
    (ht : t.src.isSome = true) : ∃ bits, Consumed s bits t := by
  rcases step_cases s t hs with ⟨op, hf, _, rfl⟩ | ⟨c, rest, _, _, hw⟩ | ⟨_, _, rfl⟩ | ⟨e, rest, _, _, he⟩
  · obtain ⟨_, _, ho⟩ := h.of_waiting hf
    exact resume_consumed op s h.sound (InFlight.wanted_of_plausible ho).2
  · obtain ⟨bits, hk⟩ := runWord_consumed c.word (s.accept c rest) t (h.sound.accept c rest) hb hw ht
    exact ⟨bits, hk.position, (State.stream_congr s (s.accept c rest) rfl rfl rfl rfl).symm.trans hk.stream⟩
  · exact ⟨[], .nothing rfl rfl⟩
  · have hk := applyInput_consumed e { s with inputs := rest } t (h.with_channels s.commands rest).sound he ht
    exact ⟨[], hk.position, (State.stream_congr s { s with inputs := rest } rfl rfl rfl rfl).symm.trans hk.stream⟩

theorem boundRun_src {h k : Nat} {s t : State} (hr : boundRun h k s t) : s.src = some h := by
  cases k with
  | zero => exact hr.1
  | succ k => exact hr.1

theorem boundRun_consumed (h k : Nat) (s t : State) (hi : s.Inv) (hr : boundRun h k s t) :
    ∃ bits, Consumed s bits t := by
  induction k generalizing s with
  | zero =>
    obtain ⟨_, rfl⟩ := hr
    exact ⟨[], .nothing rfl rfl⟩
  | succ k ih =>
    obtain ⟨hsrc, u, hstep, hrest⟩ := hr
    have hu : u.src = some h := boundRun_src hrest
    obtain ⟨front, hfront⟩ := step_consumed s u hi (by rw [hsrc]; rfl) hstep (by rw [hu]; rfl)
    obtain ⟨next, hnext⟩ := ih u (stepKeepsTheInvariant s u hi hstep) hrest
    exact ⟨front ++ next, hfront.trans hnext⟩

/-- Settles O56, by induction on the number of steps: each takes bits from the front, and the position counts them. -/
theorem streamIsConsumedInOrder : Obligations.StreamIsConsumedInOrder := by
  intro k h s t hi hr
  obtain ⟨bits, hk⟩ := boundRun_consumed h k s t hi hr
  exact ⟨hk.position ▸ Nat.le_add_right _ _, hk.stream_eq_drop⟩

end Sys2Proof.Machine
end

section
/-! SUPPORT. Proofs of the statements of 20_memory.md on the byte sources and what the outside world does to them (R40,
R41, R42, R43, R44, R45, R49, R163), and on taking a command and opening a source (R51, R120). -/

namespace Sys2Proof.Machine

/-! ## Source requests (R41, R42, R49) -/

theorem State.canAnswer_isBound {s : State} (hc : s.canAnswer = true) : s.src.isSome = true := by
  simp only [State.canAnswer, Bool.and_eq_true] at hc
  exact hc.1

theorem State.canAnswer_of_bound {s : State} {h : Nat} (hs : s.src = some h) :
    s.canAnswer = !(s.sources.read h).mood.stalled := by
  simp [State.canAnswer, State.boundSource, hs]

theorem srcRead_eq_some {max : Nat} {s t : State} {bytes : List Byte} (h : srcRead max s = some (bytes, t)) :
    s.canAnswer = true ∧ bytes = s.boundSource.answer max ∧ t = s.afterRequest max := by
  unfold srcRead at h
  split at h
  · rename_i hc
    obtain ⟨rfl, rfl⟩ := Prod.mk.inj (Option.some.inj h)
    exact ⟨hc, rfl, rfl⟩
  · cases h

theorem srcRead_eq_none (max : Nat) (s : State) : srcRead max s = none ↔ s.canAnswer = false := by
  cases hc : s.canAnswer <;> simp [srcRead, hc]

theorem Source.supply_eq_nil (x : Source) : x.supply = [] ↔ x.remaining = [] ∨ x.mood.failed = true := by
  cases hf : x.mood.failed <;> simp [Source.supply, hf]

/-- Settles O11, by the rules for a source's answer and for the state after a request. -/
theorem sourceRequestTakesTheFront : Obligations.SourceRequestTakesTheFront := by
  intro max s t bytes hs hmax hr
  obtain ⟨hc, rfl, rfl⟩ := srcRead_eq_some hr
  have hb := State.canAnswer_isBound hc
  refine ⟨?_, ?_, ?_, ?_, State.afterRequest_others max s⟩
  · rw [Source.answer_length]
    exact (s.boundSource.pick_le max).trans (Nat.min_le_right _ _)
  · rw [State.afterRequest_boundSource max s hb hs.sourcesCanonical, Source.answer_append_remaining]
  · rw [Source.answer_eq_nil _ _ hmax, Source.supply_eq_nil]
  · rw [State.afterRequest_requests max s hb, Source.answer_length]

/-- Settles O12: a bound source answers unless it is stalled. -/
theorem requestBlocksWhileStalled : Obligations.RequestBlocksWhileStalled := by
  intro max s h hs
  rw [srcRead_eq_none, State.canAnswer_of_bound hs, Bool.not_eq_false']

/-- Settles O13, by splitting the index into byte and bit. -/
theorem streamBitOrder : Obligations.StreamBitOrder := by
  intro bytes i hi
  have hbyte : i / 8 < bytes.length := by omega
  have hbit := bitSeq_getElem? bytes (i / 8) (i % 8) hbyte (Nat.mod_lt i (by decide))
  rw [Nat.div_add_mod] at hbit
  rw [hbit, List.getD_eq_getElem _ _ hbyte]

/-- Settles O14, by the table's three rules. -/
theorem sourceTableLaws : Obligations.SourceTableLaws := fun t h x ht =>
  ⟨t.write_wf h x ht, t.read_write_same h x ht, fun k hk => t.read_write_other h k x hk⟩

/-! ## The outside world (R40, R41, R42, R163) -/

theorem step_of_input {s : State} {e : Input} {rest : List Input} (ho : s.outsideTurn = true)
    (hi : s.inputs = e :: rest) : step s = applyInput e { s with inputs := rest } := by
  rw [step_of_outsideTurn s ho, outsideMove, hi]

theorem setSource_of_undisturbed (h : Nat) (x : Source) (s : State)
    (hx : s.src ≠ some h ∨ x.remaining = (s.sources.read h).remaining) :
    setSource h x s = .next { s with sources := s.sources.write h (s.sourceSet h x) } := by
  rw [setSource, if_neg]
  rintro ⟨hb, hne⟩
  exact hx.elim (fun hu => hu hb) hne

/-- A read error of the bound source outlasts its being set (R97, log 6). -/
theorem sourceSet_of_bound {h : Nat} (x : Source) {s : State} (hs : s.src = some h) :
    s.sourceSet h x = { x with mood := ⟨x.mood.stalled, x.mood.failed || (s.sources.read h).mood.failed⟩ } := by
  rw [State.sourceSet, if_pos hs]

theorem discardLateAnswer_of_free (lost : Nat) (s : State) (hf : s.inFlight = none) : s.discardLateAnswer lost = s := by
  simp [State.discardLateAnswer, hf]

/-- Settles O49: a doing's effect is `applyInput`'s, and the table's rules say what its write leaves. -/
theorem outsideDoingsTakeEffect : Obligations.OutsideDoingsTakeEffect := by
  intro s e rest hinv ho hi
  have hstep := step_of_input ho hi
  have hwf := hinv.sound.sourcesCanonical
  refine ⟨?_, ?_, ?_, ?_, ?_⟩
  · rintro c rfl
    exact hstep
  · rintro h b rfl
    exact ⟨_, hstep, Sources.read_write_same _ _ _ hwf, fun k hk => Sources.read_write_other _ _ _ _ hk⟩
  · rintro h rfl
    exact ⟨_, hstep, Sources.read_write_same _ _ _ hwf, fun k hk => Sources.read_write_other _ _ _ _ hk⟩
  · rintro h x rfl hx
    have hset := setSource_of_undisturbed h x { s with inputs := rest } hx
    have hread := Sources.read_write_same s.sources h (State.sourceSet h x { s with inputs := rest }) hwf
    refine ⟨_, hstep.trans hset, fun hu => ?_, fun hb => ?_, fun k hk => Sources.read_write_other _ _ _ _ hk⟩
    · exact hread.trans (sourceSet_of_unbound h x { s with inputs := rest } hu)
    · exact hread.trans (sourceSet_of_bound x (s := { s with inputs := rest }) hb)
  · rintro lost rfl hf
    refine ⟨_, hstep, ?_⟩
    rw [resetBlock_sources, discardLateAnswer_of_free lost { s with inputs := rest } hf]

/-! ## Taking a command and opening a source (R51, R120) -/

theorem execOpenSource_of_handle {s : State} {h : Nat} (hp : s.phase = .closed) (hs : s.srcIn = some h) :
    execOpenSource s = .next ((s.bindTo h).respond .ok 0) := by
  simp [execOpenSource, hp, sourceOperand, hs]

theorem bindTo_stream (h : Nat) (s : State) : (s.bindTo h).stream = bitSeq (s.sources.read h).remaining := by
  rw [State.stream, State.pending_of_empty _ (bindTo_nbits h s), List.nil_append,
    State.boundSource_of _ h (bindTo_src h s), bindTo_sources]

/-- Settles O28: OPEN binds the source with an empty buffer and nothing fetched. -/
theorem openStartsAtTheNextByte : Obligations.OpenStartsAtTheNextByte := by
  intro s t h hp hs he
  obtain rfl := Host.Outcome.next.inj ((execOpenSource_of_handle hp hs).symm.trans he)
  exact ⟨by rw [respond_stream, bindTo_stream], rfl, State.pending_of_empty _ rfl, rfl⟩

theorem step_of_free {s : State} {c : Command} {rest : List Command} (hf : s.inFlight = none)
    (hc : s.commands = c :: rest) : step s = runWord c.word (s.accept c rest) := by
  simp only [step, advance, hf, hc]

theorem runWord_of_reserved {w : Word} (s : State) (hd : decode w = .reserved) : runWord w s = .next s.misuse := by
  simp [runWord, hd, execReserved]

/-- Settles O36, from what a free block and a word do. -/
theorem stepRunsTheDecodedCommand : Obligations.StepRunsTheDecodedCommand := fun s c rest hf hc =>
  ⟨fun _ hd => (step_of_free hf hc).trans (runWord_of_command (s.accept c rest) hd),
    fun hd => (step_of_free hf hc).trans (runWord_of_reserved (s.accept c rest) hd)⟩

end Sys2Proof.Machine
end

section
/-! SUPPORT. Proofs of the statements of 20_memory.md on the read commands: across byte boundaries, and their frame (R46,
R48, R49, R51, R94, R95). -/

namespace Sys2Proof.Machine

/-! ## READ_BYTE at and off a byte boundary (R46) -/

/-- The byte made of the low bits of one byte and the high bits of the next. -/
theorem bitsMsb_straddle (a b : Byte) (r : Nat) (hr : r < 8) :
    bitsMsb ((a <<< r) ||| (b >>> (8 - r))) = (bitsMsb a).drop r ++ (bitsMsb b).take r := by
  interval_cases r <;> simp [bitsMsb]

/-- The next eight bits of the stream, `r` bits past a byte boundary, and what follows them. -/
theorem bitSeq_drop_straddle (a b : Byte) (rest : List Byte) (r : Nat) (hr : r < 8) :
    (bitSeq (a :: b :: rest)).drop r =
      bitsMsb ((a <<< r) ||| (b >>> (8 - r))) ++ (bitSeq (b :: rest)).drop r := by
  have ha : r ≤ (bitsMsb a).length := by rw [bitsMsb_length]; omega
  have hb : r ≤ (bitsMsb b).length := by rw [bitsMsb_length]; omega
  rw [bitsMsb_straddle a b r hr, bitSeq_cons, bitSeq_cons, List.drop_append_of_le_length ha,
    List.drop_append_of_le_length hb, List.append_assoc, ← List.append_assoc (List.take r _), List.take_append_drop]

/-- A READ_BYTE that can have the bits of `v` answers `v` (R94). -/
theorem execReadByte_of_byte {s : State} (h : s.Sound) (hp : s.phase = .read) (ha : 8 ≤ s.nbits ∨ s.canAnswer = true)
    {v : Byte} {rest : List Bool} (hd : s.deliverable = bitsMsb v ++ rest) :
    ∃ t, exec .readByte s = .next t ∧ t.rsp = some ⟨.ok, v⟩ ∧ t.deliverable = rest := by
  obtain ⟨t, he, _, hrest⟩ := resume_of_deliverable (.readByte 8 0) s h le_rfl ha (bitsMsb v) rest hd (bitsMsb_length v)
  refine ⟨_, (execReadByte_read s hp).trans (congrArg _ he), ?_, ?_⟩
  · rw [respond_rsp, accumulate_bitsMsb]
  · rw [respond_deliverable, hrest]

/-- Settles O22: both cases are READ_BYTE with the bits of one byte in front. -/
theorem readByteAcrossByteBoundaries : Obligations.ReadByteAcrossByteBoundaries := fun _ hinv hp ha =>
  ⟨fun a rest hd => execReadByte_of_byte hinv.sound hp ha (hd.trans (bitSeq_cons a rest)),
    fun a b rest r hr hd => execReadByte_of_byte hinv.sound hp ha (hd.trans (bitSeq_drop_straddle a b rest r hr))⟩

/-! ## The frame of the read commands (R48, R49, R51) -/

/-- What a read does to the sources: the bound one loses the bytes that come to be counted as fetched and keeps its mood,
every other is as it was, and without a request neither buffer nor sources change (R49). -/
structure FetchesFront (s t : State) : Prop where
  others : ∀ h : Nat, s.src ≠ some h → t.sources.read h = s.sources.read h
  mood : t.boundSource.mood = s.boundSource.mood
  remaining : s.boundSource.remaining =
    s.boundSource.remaining.take (t.fetched - s.fetched) ++ t.boundSource.remaining
  grows : s.fetched ≤ t.fetched
  noRequest : t.requests = s.requests → t.buf = s.buf ∧ t.sources = s.sources ∧ t.fetched = s.fetched

theorem FetchesFront.of_unfetched {s t : State} (hsrc : t.src = s.src) (hs : t.sources = s.sources)
    (hb : t.buf = s.buf) (hf : t.fetched = s.fetched) : FetchesFront s t where
  others _ _ := by rw [hs]
  mood := by rw [State.boundSource_congr s t hsrc hs]
  remaining := by rw [State.boundSource_congr s t hsrc hs, hf, Nat.sub_self, List.take_zero, List.nil_append]
  grows := hf.ge
  noRequest _ := ⟨hb, hs, hf⟩

theorem FetchesFront.respond {s t : State} (h : FetchesFront s t) (st : Status) (d : Byte) :
    FetchesFront s (t.respond st d) :=
  ⟨h.others, h.mood, h.remaining, h.grows, h.noRequest⟩

theorem Took.fetchesFront {s t : State} {bits : List Bool} (h : Took s bits t) : FetchesFront s t := by
  rcases h.source with ⟨_, rfl⟩ | ⟨_, _, n, _, _, _, hreq, hf, hrem⟩
  · exact .of_unfetched rfl rfl rfl rfl
  · exact {
      others := h.keeps.others
      mood := h.keeps.mood
      remaining := by rw [hrem, hf, Nat.add_sub_cancel_left, List.take_append_drop]
      grows := by omega
      noRequest := fun he => by simp [hreq] at he }

theorem resume_fetchesFront (op : InFlight) (s : State) (h : s.Sound) (hw : op.wanted ≤ 8) :
    FetchesFront s (resume op s) := by
  rcases resume_cases op s h hw with ⟨bits, t, he, _, hk⟩ | ⟨he, _⟩ | ⟨he, _⟩ <;> rw [he]
  · exact hk.fetchesFront.respond _ _
  · exact .of_unfetched rfl rfl rfl rfl
  · exact .of_unfetched rfl rfl rfl rfl

/-- Settles O25: a read ends in an answer or a wait with the other fields untouched, and fetches from the front. -/
theorem readCommandsFrame : Obligations.ReadCommandsFrame := by
  intro i s t hinv hi hp he
  obtain ⟨op, ho, hexec⟩ := exec_read_eq_resume hi
  obtain rfl := Host.Outcome.next.inj ((hexec s hp).symm.trans he)
  have hfront := resume_fetchesFront op s hinv.sound (InFlight.wanted_of_plausible ho).2
  have hends := resume_ends op s
  generalize resume op s = t at hfront hends
  obtain ⟨hothers, hmood, hrem, hgrows, hnone⟩ := hfront
  cases hends with
  | answered u st d hu _ =>
    exact ⟨hu.cfg, hu.phase, hu.src, hu.srcIn, hu.commands, hu.inputs,
      .inr ⟨_, by rw [respond_responses, hu.responses], rfl⟩, hothers, hmood, hrem, hgrows, hnone⟩
  | waits u op' hu =>
    exact ⟨hu.cfg, hu.phase, hu.src, hu.srcIn, hu.commands, hu.inputs, .inl hu.responses, hothers, hmood, hrem, hgrows,
      hnone⟩

end Sys2Proof.Machine
end

section
/-! SUPPORT. Proofs of the statements of 20_memory.md on a read that waits: how it waits, and that waiting only delays it
(R41, R42, R51). -/

namespace Sys2Proof.Machine

/-! ## Waiting on a stalled source (R42) -/

/-- A read that needs a bit of a source that does not answer waits, the buffered bits gathered (R42, R94). -/
theorem resume_of_stalled (op : InFlight) (s : State) (h : s.Sound) (hw : op.wanted ≤ 8) (hn : s.nbits < op.wanted)
    (hc : s.canAnswer = false) : resume op s = State.park (op.afterBits s.pending) { s with nbits := 0 } := by
  rcases resume_cases op s h hw with ⟨bits, t, _, hlen, hk⟩ | ⟨_, _, _, hc'⟩ | ⟨he, _⟩
  · rcases hk.source with ⟨hle, _⟩ | ⟨_, hc', _⟩
    · omega
    · simp [hc] at hc'
  · simp [hc] at hc'
  · exact he

/-- Settles O40: the waiting READ_BYTE's accumulator holds the buffered bits, the last in bit 0. -/
theorem readOfStalledSourceWaits : Obligations.ReadOfStalledSourceWaits := by
  intro s hinv hp hc
  refine ⟨fun hn => ?_, fun hn => ⟨accumulate 0 s.pending, ?_, ?_, fun k hk => ?_⟩⟩
  · have he := resume_of_stalled .readBit s hinv.sound (by decide) (hn.trans_lt Nat.one_pos) hc
    rw [State.with_nbits_of_empty s hn] at he
    exact (execReadBit_read s hp).trans (congrArg _ he)
  · have he := resume_of_stalled (.readByte 8 0) s hinv.sound le_rfl hn hc
    rw [InFlight.afterBits, State.pending_length] at he
    exact (execReadByte_read s hp).trans (congrArg _ he)
  · have hlt := accumulate_lt s.pending 0 0 (by rw [State.pending_length]; omega) (by decide)
    rwa [Nat.zero_add, State.pending_length] at hlt
  · have hbit := accumulate_getLsbD s.pending 0 k (by rw [State.pending_length]; omega) (by rwa [State.pending_length])
    rwa [State.pending_length] at hbit

/-! ## A read gives the same with the buffered bits gathered, and whatever is noted as in progress -/

/-- The command noted as in progress, in every outcome of PopBit. -/
def Pop.park (op : InFlight) : Pop → Pop
  | .bit b t => .bit b (t.park op)
  | .fail t => .fail (t.park op)
  | .waiting => .waiting

/-- The command noted as in progress, in every outcome of the bit loop. -/
def Got.park (op : InFlight) : Got → Got
  | .done v t => .done v (t.park op)
  | .ended t => .ended (t.park op)
  | .waiting left acc t => .waiting left acc (t.park op)

theorem afterRequest_park (op : InFlight) (max : Nat) (s : State) :
    (s.park op).afterRequest max = (s.afterRequest max).park op := by
  cases hs : s.src <;> simp [State.afterRequest, State.park, hs]

theorem popBit_park (op : InFlight) (s : State) : popBit (s.park op) = (popBit s).park op := by
  by_cases hn : s.nbits = 0
  · cases hc : s.canAnswer with
    | false =>
      rw [popBit_of_stalled s hn hc, popBit_of_stalled (s.park op) hn hc]
      rfl
    | true =>
      rw [popBit_of_empty s hn hc, popBit_of_empty (s.park op) hn hc, park_cfg, afterRequest_park, apply_ite (Pop.park op)]
      rfl
  · rw [popBit_of_bits s hn, popBit_of_bits (s.park op) hn]
    rfl

theorem takeBits_park (op : InFlight) (left : Nat) (acc : Byte) (s : State) :
    takeBits left acc (s.park op) = (takeBits left acc s).park op := by
  induction left generalizing acc s with
  | zero => rfl
  | succ left ih =>
    simp only [takeBits, popBit_park]
    cases popBit s with
    | bit b t => exact ih _ t
    | fail t => rfl
    | waiting => rfl

/-- What is noted as in progress has no effect on a read: its end overwrites it. -/
theorem resume_park (op noted : InFlight) (s : State) : resume op (s.park noted) = resume op s := by
  cases op with
  | readBit =>
    simp only [resume, runReadBit, popBit_park]
    cases popBit s <;> rfl
  | readByte left acc =>
    simp only [resume, runReadByte, takeBits_park]
    cases takeBits left acc s <;> rfl

/-- The bit loop takes the buffered bits first (R94). -/
theorem takeBits_of_buffered (n left : Nat) (acc : Byte) (s : State) (hn : s.nbits = n) :
    takeBits (n + left) acc s = takeBits left (accumulate acc s.pending) { s with nbits := 0 } := by
  induction n generalizing acc s with
  | zero => rw [State.pending_of_empty s hn, State.with_nbits_of_empty s hn, accumulate_nil, Nat.zero_add]
  | succ n ih =>
    have hpos : s.nbits ≠ 0 := by omega
    rw [Nat.succ_add, takeBits, popBit_of_bits s hpos, State.pending_dropTop s hpos, accumulate_cons]
    exact ih (shiftIn acc s.topBit) s.dropTop (by rw [dropTop_nbits]; omega)

/-- A read that wants more than is buffered goes on from the buffered bits. -/
theorem resume_of_buffered (op : InFlight) (s : State) (hn : s.nbits < op.wanted) :
    resume op s = resume (op.afterBits s.pending) { s with nbits := 0 } := by
  cases op with
  | readBit => rw [State.with_nbits_of_empty s (Nat.lt_one_iff.mp hn), InFlight.afterBits]
  | readByte left acc =>
    have hle : s.nbits ≤ left := hn.le
    have hbits := takeBits_of_buffered s.nbits (left - s.nbits) acc s rfl
    rw [Nat.add_sub_cancel' hle] at hbits
    rw [InFlight.afterBits, State.pending_length]
    simp only [resume, runReadByte, hbits]

/-! ## The source answers again (R41, R42, R51) -/

/-- Waking the source changes nothing but the table of sources. -/
theorem wake_eq (error : Bool) (s : State) : s.wake error = { s with sources := (s.wake error).sources } := by
  unfold State.wake
  split
  · rfl
  · split <;> rfl

@[simp] theorem wake_cfg (error : Bool) (s : State) : (s.wake error).cfg = s.cfg :=
  (congrArg State.cfg (wake_eq error s) :)
@[simp] theorem wake_phase (error : Bool) (s : State) : (s.wake error).phase = s.phase :=
  (congrArg State.phase (wake_eq error s) :)
@[simp] theorem wake_buf (error : Bool) (s : State) : (s.wake error).buf = s.buf :=
  (congrArg State.buf (wake_eq error s) :)
@[simp] theorem wake_nbits (error : Bool) (s : State) : (s.wake error).nbits = s.nbits :=
  (congrArg State.nbits (wake_eq error s) :)
@[simp] theorem wake_src (error : Bool) (s : State) : (s.wake error).src = s.src :=
  (congrArg State.src (wake_eq error s) :)
@[simp] theorem wake_responses (error : Bool) (s : State) : (s.wake error).responses = s.responses :=
  (congrArg State.responses (wake_eq error s) :)
@[simp] theorem wake_requests (error : Bool) (s : State) : (s.wake error).requests = s.requests :=
  (congrArg State.requests (wake_eq error s) :)

theorem wake_pending (error : Bool) (s : State) : (s.wake error).pending = s.pending :=
  State.pending_congr s _ (wake_buf error s) (wake_nbits error s)

/-- Waking the source looks only at the binding and the sources. -/
theorem wake_of_parked (error : Bool) (op : InFlight) (s : State) :
    State.wake error (State.park op { s with nbits := 0 }) = State.park op { s.wake error with nbits := 0 } := by
  cases hs : s.src with
  | none => simp [State.wake, hs, State.park]
  | some h => cases error <;> simp [State.wake, hs, State.setStalled, State.readError, State.park]

/-- The mood of the bound source after it has been woken: not stalled, and failed where there was an error. -/
theorem wake_boundSource_mood (error : Bool) (s : State) (hb : s.src.isSome = true) (hwf : s.sources.wf = true) :
    (s.wake error).boundSource.mood = ⟨false, error || s.boundSource.mood.failed⟩ := by
  obtain ⟨h, hs⟩ := Option.isSome_iff_exists.mp hb
  cases error
  · simp [State.wake, State.boundSource, hs, Sources.read_write_same _ _ _ hwf]
  · simp [State.wake, State.boundSource, hs, Sources.read_write_same _ _ _ hwf,
      Sources.read_write_same _ _ _ (Sources.write_wf _ _ _ hwf)]

theorem wake_canAnswer (error : Bool) (s : State) (hb : s.src.isSome = true) (hwf : s.sources.wf = true) :
    (s.wake error).canAnswer = true := by
  simp [State.canAnswer, wake_boundSource_mood error s hb hwf, hb]

theorem State.Sound.wake {s : State} (h : s.Sound) (error : Bool) : (s.wake error).Sound := by
  have hwf : (s.wake error).sources.wf = true := by
    unfold State.wake
    split
    · exact h.sourcesCanonical
    · split
      · exact Sources.write_wf _ _ _ (Sources.write_wf _ _ _ h.sourcesCanonical)
      · exact Sources.write_wf _ _ _ h.sourcesCanonical
  rw [wake_eq]
  exact ⟨h.legalCapacity, h.countInRange, h.cellsWritten, h.cellsFit, h.closedIsEmpty, h.boundExactly, hwf,
    h.fetchedCovers⟩

/-- A command in progress goes on as soon as its source answers. -/
theorem step_of_answered {s : State} {op : InFlight} (hf : s.inFlight = some op) (hc : s.canAnswer = true) :
    step s = .next (resume op s) := by
  simp only [step, advance, hf, hc, if_true]

/-- A read that leaves a command in progress waits: too few bits are buffered, and they are gathered. -/
theorem resume_of_inFlight {start op : InFlight} {s : State} (h : s.Sound) (hw : start.wanted ≤ 8)
    (hf : (resume start s).inFlight = some op) :
    s.nbits < start.wanted ∧ op = start.afterBits s.pending ∧ resume start s = State.park op { s with nbits := 0 } := by
  rcases resume_cases start s h hw with ⟨_, _, he, _⟩ | ⟨he, _⟩ | ⟨he, hn, _⟩
  · simp [he] at hf
  · simp [he] at hf
  · obtain rfl : start.afterBits s.pending = op := by simpa [he] using hf
    exact ⟨hn, rfl, he⟩

theorem InFlight.afterBits_wanted {op : InFlight} {bits : List Bool} (hw : op.wanted ≤ 8)
    (hlen : bits.length < op.wanted) : 1 ≤ (op.afterBits bits).wanted ∧ (op.afterBits bits).wanted ≤ 8 := by
  cases op with
  | readBit => exact ⟨le_rfl, hw⟩
  | readByte left acc => exact ⟨Nat.sub_pos_of_lt hlen, (Nat.sub_le _ _).trans hw⟩

/-- A read that waits, its source then answering with a read error, comes to EndOfData (R41, D10). -/
theorem resume_of_readError (op : InFlight) (s : State) (h : s.Sound) (hb : s.src.isSome = true)
    (hw : 1 ≤ op.wanted ∧ op.wanted ≤ 8) (hn : s.nbits = 0) :
    resume op (s.wake true) =
      State.raise .endOfData { s.wake true with nbits := 0, requests := s.requests ++ [⟨s.cfg.capBytes, 0⟩] } := by
  have hmood := wake_boundSource_mood true s hb h.sourcesCanonical
  have hnothing : (s.wake true).boundSource.supply = [] := by rw [Source.supply, hmood]; rfl
  have hn' : (s.wake true).nbits = 0 := (wake_nbits true s).trans hn
  have hd : (s.wake true).deliverable = [] := State.deliverable_eq_nil _ hn' hnothing
  rw [resume_of_nothing_deliverable op _ (h.wake true) hw (wake_canAnswer true s hb h.sourcesCanonical) hd]
  simp only [wake_requests, wake_cfg]

/-- Settles O41: a read gives the same with the buffered bits gathered, so it may as well do so while it waits. -/
theorem waitingOnlyDelays : Obligations.WaitingOnlyDelays := by
  intro i s t op error hinv _ hi hp hstall he ht
  obtain ⟨start, hstart, hexec⟩ := exec_read_eq_resume hi
  obtain rfl := Host.Outcome.next.inj ((hexec s hp).symm.trans he)
  have hsound := hinv.sound
  have hb : s.src.isSome = true := hsound.isBound (by simp [hp])
  have hw := (InFlight.wanted_of_plausible hstart).2
  obtain ⟨hn, hop, hpark⟩ := resume_of_inFlight hsound hw ht
  have hparked : State.wake error (resume start s) = State.park op { s.wake error with nbits := 0 } := by
    rw [hpark, wake_of_parked]
  have hresume : resume op (State.wake error (resume start s)) = resume start (s.wake error) := by
    rw [hparked, resume_park, hop, ← wake_pending error s]
    exact (resume_of_buffered start (s.wake error) (by rwa [wake_nbits])).symm
  refine ⟨?_, ?_, ?_⟩
  · rw [hresume]
    exact hexec _ (by rw [wake_phase, hp])
  · refine step_of_answered ?_ ?_
    · rw [hparked, park_inFlight]
    · rw [hparked]
      exact wake_canAnswer error s hb hsound.sourcesCanonical
  · rintro rfl
    have hwanted := InFlight.afterBits_wanted (bits := s.pending) hw (by rwa [State.pending_length])
    rw [← hop] at hwanted
    have herr := resume_of_readError op (State.park op { s with nbits := 0 }) ((hsound.exhaust s.requests).park op) hb
      hwanted rfl
    rw [hpark, herr, wake_of_parked]
    simp only [State.raise, State.respond, State.park, wake_responses]

end Sys2Proof.Machine
end

section
/-! SUPPORT. Proofs of the statements of 20_memory.md on sequences of words: the stream law (R45), what a producer writes
(R53), and reading it back (R54). -/

namespace Sys2Proof.Machine

/-! ## A reader whose source answers -/

/-- The block is bound, in READ or FAULT, and its source answers. -/
structure Serving (s : State) : Prop where
  sound : s.Sound
  bound : s.phase ≠ .closed
  answers : s.canAnswer = true

theorem Serving.respond {s : State} (h : Serving s) (st : Status) (d : Byte) : Serving (s.respond st d) :=
  ⟨h.sound.respond st d, h.bound, h.answers⟩

theorem Serving.misuse {s : State} (h : Serving s) : Serving s.misuse :=
  ⟨h.sound.misuse, fun hp => h.bound (s.phase.afterMisuse_eq_closed.mp hp), h.answers⟩

theorem Serving.exhaust {s : State} (h : Serving s) (reqs : List Request) :
    Serving { s with nbits := 0, requests := reqs } :=
  ⟨h.sound.exhaust reqs, h.bound, h.answers⟩

theorem Serving.took {s t : State} {bits : List Bool} (h : Serving s) (hk : Took s bits t) : Serving t :=
  ⟨hk.sound, fun hp => h.bound (hk.keeps.phase.symm.trans hp), hk.keeps.canAnswer.trans h.answers⟩

/-- What a read comes to where the source answers: its bits, or EndOfData with the buffered bits lost and nothing left. -/
theorem Serving.resume_answers {s : State} (h : Serving s) (op : InFlight) (hw : op.wanted ≤ 8) :
    Serving (resume op s) ∧
    ((∃ bits, (resume op s).responses = s.responses ++ [⟨.ok, accumulate op.gathered bits⟩] ∧
        bits.length = op.wanted ∧ s.deliverable = bits ++ (resume op s).deliverable) ∨
      ((resume op s).responses = s.responses ++ [⟨.endOfData, 0⟩] ∧ s.deliverable = s.pending ∧
        s.nbits < op.wanted ∧ (resume op s).deliverable = [])) := by
  rcases resume_cases op s h.sound hw with ⟨bits, t, he, hlen, hk⟩ | ⟨he, hn, hs, _⟩ | ⟨_, _, hc⟩
  · rw [he]
    refine ⟨(h.took hk).respond _ _, .inl ⟨bits, ?_, hlen, ?_⟩⟩
    · rw [respond_responses, hk.keeps.responses]
    · rw [respond_deliverable, hk.deliverable]
  · rw [he]
    exact ⟨(h.exhaust _).respond _ _, .inr ⟨rfl, State.deliverable_of_nothing_left s hs, hn,
      State.deliverable_eq_nil _ rfl hs⟩⟩
  · simp [h.answers] at hc

/-! ## The stream law (R45) -/

theorem deliveredBits_cons (w : Word) (ws : List Word) (r : Response) (rs : List Response) :
    deliveredBits (w :: ws) (r :: rs) = deliveredBits [w] [r] ++ deliveredBits ws rs := by
  simp [deliveredBits]

theorem deliveredBits_readBit {w : Word} (hd : decode w = .command .readBit) (d : Byte) :
    deliveredBits [w] [⟨.ok, d⟩] = [d.getLsbD 0] := by
  simp [deliveredBits, hd]

theorem deliveredBits_readByte {w : Word} (hd : decode w = .command .readByte) (d : Byte) :
    deliveredBits [w] [⟨.ok, d⟩] = bitsMsb d := by
  simp [deliveredBits, hd]

theorem deliveredBits_openSource {w : Word} (hd : decode w = .command .openSource) (r : Response) :
    deliveredBits [w] [r] = [] := by
  simp [deliveredBits, hd]

theorem deliveredBits_of_error (w : Word) (r : Response) (hr : r.status ≠ .ok) : deliveredBits [w] [r] = [] := by
  simp only [deliveredBits, List.append_nil]
  split
  · exact absurd ‹_› hr
  · exact absurd ‹_› hr
  · rfl

/-- From `s` to `t` the words have the responses `rs`, one each; what they deliver, then the bits lost, then what `t` can
still deliver, is what `s` could deliver, in order (R45). -/
structure Dispenses (ws : List Word) (s : State) (rs : List Response) (lost : List Bool) (t : State) : Prop where
  responses : t.responses = s.responses ++ rs
  onePerWord : rs.length = ws.length
  bits : s.deliverable = deliveredBits ws rs ++ lost ++ t.deliverable
  lostFew : lost.length ≤ 7
  lostAtEnd : lost ≠ [] → t.deliverable = []

theorem Dispenses.nil (s : State) : Dispenses [] s [] [] s :=
  ⟨(List.append_nil _).symm, rfl, rfl, Nat.zero_le 7, fun h => absurd rfl h⟩

/-- Bits are lost at most once: where a word loses some, nothing is left for the words after it. -/
theorem Dispenses.cons {w : Word} {ws : List Word} {s t u : State} {r : Response} {rs : List Response}
    {lost lost' : List Bool} (h : Dispenses [w] s [r] lost t) (k : Dispenses ws t rs lost' u) :
    Dispenses (w :: ws) s (r :: rs) (lost ++ lost') u := by
  have hresp : u.responses = s.responses ++ r :: rs := by
    rw [k.responses, h.responses, List.append_assoc, List.singleton_append]
  have hcount : (r :: rs).length = (w :: ws).length := congrArg Nat.succ k.onePerWord
  have hbits := h.bits
  rw [k.bits] at hbits
  rcases eq_or_ne lost [] with rfl | hne
  · refine ⟨hresp, hcount, ?_, k.lostFew, k.lostAtEnd⟩
    rw [hbits, deliveredBits_cons w ws r rs]
    simp only [List.append_assoc, List.nil_append]
  · have hend := h.lostAtEnd hne
    rw [k.bits, List.append_eq_nil_iff, List.append_eq_nil_iff] at hend
    obtain ⟨⟨hnone, rfl⟩, hleft⟩ := hend
    refine ⟨hresp, hcount, ?_, by rw [List.append_nil]; exact h.lostFew, fun _ => hleft⟩
    rw [hbits, deliveredBits_cons w ws r rs, hnone]
    simp only [List.append_assoc, List.nil_append]

/-- A read dispenses the bits its answer delivers; where it fails, the buffered bits are lost (R96). -/
theorem Serving.dispenses_resume {s : State} (h : Serving s) (op : InFlight) (hw : op.wanted ≤ 8) (w : Word)
    (hdel : ∀ bits : List Bool, bits.length = op.wanted →
      deliveredBits [w] [⟨.ok, accumulate op.gathered bits⟩] = bits) :
    ∃ r lost, Dispenses [w] s [r] lost (resume op s) := by
  rcases (h.resume_answers op hw).2 with ⟨bits, hr, hlen, hd⟩ | ⟨hr, hd, hn, hend⟩
  · refine ⟨_, [], hr, rfl, ?_, Nat.zero_le 7, fun hne => absurd rfl hne⟩
    rw [hdel bits hlen, List.append_nil, hd]
  · refine ⟨_, s.pending, hr, rfl, ?_, by rw [State.pending_length]; omega, fun _ => hend⟩
    rw [deliveredBits_of_error w _ (by decide), hend, List.nil_append, List.append_nil, hd]

theorem misuse_dispenses (w : Word) (s : State) : Dispenses [w] s [⟨.misusedStream, 0⟩] [] s.misuse where
  responses := rfl
  onePerWord := rfl
  bits := by rw [deliveredBits_of_error w _ (by decide), misuse_deliverable, List.nil_append, List.nil_append]
  lostFew := Nat.zero_le 7
  lostAtEnd h := absurd rfl h

/-- The bits of the byte a read answers are the bits it took (R43, R94, R95). -/
theorem deliveredBits_accumulate_readBit {w : Word} (hd : decode w = .command .readBit) (bits : List Bool)
    (hlen : bits.length = 1) : deliveredBits [w] [⟨.ok, accumulate 0 bits⟩] = bits := by
  obtain ⟨b, rfl⟩ := List.length_eq_one_iff.mp hlen
  rw [deliveredBits_readBit hd, accumulate_cons, accumulate_nil, shiftIn_getLsbD_zero]

theorem deliveredBits_accumulate_readByte {w : Word} (hd : decode w = .command .readByte) (bits : List Bool)
    (hlen : bits.length = 8) : deliveredBits [w] [⟨.ok, accumulate 0 bits⟩] = bits := by
  rw [deliveredBits_readByte hd, bitsMsb_accumulate bits 0 hlen]

/-- One word but CLOSE, sent to a bound block whose source answers (R45). -/
theorem Serving.dispenses_runWord {s : State} (h : Serving s) (w : Word) (hw : decode w ≠ .command .close) :
    ∃ r lost t, runWord w s = .next t ∧ Serving t ∧ Dispenses [w] s [r] lost t := by
  rcases runWord_cases w s with
    ⟨he, _⟩ | ⟨_, _, hp, _⟩ | ⟨_, _, _, hp, _⟩ | ⟨_, hd⟩ | ⟨he, hd, _⟩ | ⟨he, hd, _⟩
  · exact ⟨_, [], s.misuse, he, h.misuse, misuse_dispenses w s⟩
  · exact absurd hp h.bound
  · exact absurd hp h.bound
  · exact absurd hd hw
  · obtain ⟨r, lost, hdisp⟩ :=
      h.dispenses_resume .readBit (by decide) w (deliveredBits_accumulate_readBit hd)
    exact ⟨r, lost, _, he, (h.resume_answers .readBit (by decide)).1, hdisp⟩
  · obtain ⟨r, lost, hdisp⟩ :=
      h.dispenses_resume (.readByte 8 0) le_rfl w (deliveredBits_accumulate_readByte hd)
    exact ⟨r, lost, _, he, (h.resume_answers (.readByte 8 0) le_rfl).1, hdisp⟩

theorem issueAll_cons {w : Word} {s t : State} (ws : List Word) (h : runWord w s = .next t) :
    issueAll (w :: ws) s = issueAll ws t := by
  simp only [issueAll, h]

theorem Serving.dispenses_issueAll {s : State} (h : Serving s) (ws : List Word)
    (hws : ∀ w ∈ ws, decode w ≠ .command .close) :
    ∃ rs lost t, issueAll ws s = .next t ∧ Dispenses ws s rs lost t := by
  induction ws generalizing s with
  | nil => exact ⟨[], [], s, rfl, .nil s⟩
  | cons w ws ih =>
    obtain ⟨r, lost, t, he, ht, hdisp⟩ := h.dispenses_runWord w (hws w (List.mem_cons_self))
    obtain ⟨rs, lost', u, hes, hdisps⟩ := ih ht fun w' hw' => hws w' (List.mem_cons_of_mem w hw')
    exact ⟨r :: rs, lost ++ lost', u, (issueAll_cons ws he).trans hes, hdisp.cons hdisps⟩

theorem decode_encode_openSource : decode (encode .openSource) = .command .openSource := by decide

theorem decode_encode_readBit : decode (encode .readBit) = .command .readBit := by decide

/-- The block just bound to a ready source. -/
theorem State.Sound.serving_bindTo {s : State} (h : s.Sound) {k : Nat} (hm : (s.sources.read k).mood = .ready) :
    Serving ((s.bindTo k).respond .ok 0) := by
  refine ⟨(h.bindTo k).respond .ok 0, by simp, ?_⟩
  rw [respond_canAnswer, State.canAnswer_of_bound (bindTo_src k s), bindTo_sources, hm]
  rfl

theorem bindTo_deliverable {k : Nat} {s : State} (hm : (s.sources.read k).mood = .ready) :
    (s.bindTo k).deliverable = bitSeq (s.sources.read k).remaining := by
  have hf : (s.sources.read k).mood.failed = false := by rw [hm]; rfl
  rw [State.deliverable, State.pending_of_empty _ (bindTo_nbits k s), List.nil_append,
    State.boundSource_of _ k (bindTo_src k s), bindTo_sources, Source.supply_of_not_failed _ hf]

/-- Settles O57: OPEN makes the source's bits deliverable, and every word after it dispenses from the front. -/
theorem streamLaw : Obligations.StreamLaw := by
  intro ws s h hinv hp _ hs hm hws
  have hopen : runWord (encode .openSource) s = .next ((s.bindTo h).respond .ok 0) :=
    (runWord_of_command s decode_encode_openSource).trans (execOpenSource_of_handle hp hs)
  obtain ⟨rs, lost, t, hrun, hdisp⟩ := (hinv.sound.serving_bindTo hm).dispenses_issueAll ws hws
  have hresp : t.responsesSince s.responses.length = ⟨.ok, 0⟩ :: rs := by
    rw [State.responsesSince, hdisp.responses, respond_responses, bindTo_responses, List.append_assoc, List.drop_left]
    rfl
  have hbits := hdisp.bits
  rw [respond_deliverable, bindTo_deliverable hm] at hbits
  refine ⟨t, lost, (issueAll_cons ws hopen).trans hrun, ?_, ?_, hdisp.lostFew, hdisp.lostAtEnd⟩
  · rw [hresp, List.length_cons, hdisp.onePerWord]
  · rw [hresp, deliveredBits_cons, deliveredBits_openSource decode_encode_openSource, List.nil_append, hbits]

/-! ## The producer (R53) -/

theorem getD_append_replicate (bits : List Bool) (m k : Nat) :
    (bits ++ List.replicate m false).getD k false = bits.getD k false := by
  rcases Nat.lt_or_ge k bits.length with hk | hk
  · exact List.getD_append _ _ _ _ hk
  · rw [List.getD_append_right _ _ _ _ hk, List.getD_eq_default _ _ hk, List.getD_eq_getElem?_getD,
      List.getElem?_getD_replicate_default_eq]

/-- Missing bits count as zeros. -/
theorem packByte_append_replicate (bits : List Bool) (m : Nat) :
    packByte (bits ++ List.replicate m false) = packByte bits := by
  simp only [packByte, byteValue, getD_append_replicate]

theorem packByte_eq_accumulate (bits : List Bool) (hlen : bits.length = 8) : packByte bits = accumulate 0 bits := by
  rw [packByte, ← accumulate_eight bits hlen, BitVec.ofNat_toNat, BitVec.setWidth_eq]

/-- A byte's bits are the bits packed into it, then the padding. -/
theorem bitsMsb_packByte (bits : List Bool) (hlen : bits.length ≤ 8) :
    bitsMsb (packByte bits) = bits ++ List.replicate (8 - bits.length) false := by
  have hfull : (bits ++ List.replicate (8 - bits.length) false).length = 8 := by simp; omega
  rw [← packByte_append_replicate bits (8 - bits.length), packByte_eq_accumulate _ hfull, bitsMsb_accumulate _ 0 hfull]

@[simp] theorem packBytes_length (n : Nat) (bits : List Bool) : (packBytes n bits).length = n := by
  induction n generalizing bits with
  | zero => rfl
  | succ n ih => rw [packBytes, List.length_cons, ih]

/-- Packed bytes that hold all the bits hold them in order, then the padding. -/
theorem bitSeq_packBytes (n : Nat) (bits : List Bool) (hlen : bits.length ≤ 8 * n) :
    bitSeq (packBytes n bits) = bits ++ List.replicate (8 * n - bits.length) false := by
  induction n generalizing bits with
  | zero =>
    obtain rfl : bits = [] := List.length_eq_zero_iff.mp (by omega)
    rfl
  | succ n ih =>
    rw [packBytes, bitSeq_cons, bitsMsb_packByte _ (List.length_take_le 8 bits), ih _ (by rw [List.length_drop]; omega),
      List.length_take, List.length_drop]
    rcases Nat.le_total 8 bits.length with hle | hle
    · rw [Nat.min_eq_left hle, Nat.sub_self, List.replicate_zero, List.append_nil, ← List.append_assoc,
        List.take_append_drop, show 8 * n - (bits.length - 8) = 8 * (n + 1) - bits.length by omega]
    · rw [List.take_of_length_le hle, List.drop_of_length_le hle, Nat.min_eq_right hle, List.nil_append,
        List.append_assoc, List.replicate_append_replicate,
        show 8 - bits.length + (8 * n - (bits.length - 8)) = 8 * (n + 1) - bits.length by omega]

/-- Settles O59: the bytes just hold the bits, so the padding fills the last byte. -/
theorem producerPadsWithZeros : Obligations.ProducerPadsWithZeros := by
  intro bits
  refine ⟨packBytes_length _ bits, ?_⟩
  rw [producerBytes, bitSeq_packBytes _ bits (by omega),
    show 8 * ((bits.length + 7) / 8) - bits.length = (8 - bits.length % 8) % 8 by omega]

/-! ## Reading back (R54) -/

/-- The response that delivers one bit (R66, R95). -/
def bitResponse (b : Bool) : Response := ⟨.ok, if b then 0x01 else 0x00⟩

/-- What READ_BITs answer where the source answers: the bits as far as they go, then EndOfData (R54, R97). -/
theorem Serving.issueReadBits {s : State} (h : Serving s) (hp : s.phase = .read) (n : Nat) :
    ∃ t, issueAll (List.replicate n (encode .readBit)) s = .next t ∧
      t.responses = s.responses ++ ((s.deliverable.take n).map bitResponse ++
        List.replicate (n - s.deliverable.length) ⟨.endOfData, 0⟩) := by
  induction n generalizing s with
  | zero => exact ⟨s, rfl, by simp⟩
  | succ n ih =>
    have hrun : runWord (encode .readBit) s = .next (resume .readBit s) :=
      (runWord_of_command s decode_encode_readBit).trans (execReadBit_read s hp)
    obtain ⟨hserv, hcases⟩ := h.resume_answers .readBit (by decide)
    obtain ⟨t, hrest, hresp⟩ := ih hserv ((resume_ends .readBit s).phase_eq.trans hp)
    refine ⟨t, (issueAll_cons _ hrun).trans hrest, ?_⟩
    rcases hcases with ⟨bits, hr, hlen, hd⟩ | ⟨hr, hd, hn, hend⟩
    · obtain ⟨b, rfl⟩ := List.length_eq_one_iff.mp hlen
      have hbit : (⟨.ok, accumulate InFlight.readBit.gathered [b]⟩ : Response) = bitResponse b := by cases b <;> rfl
      rw [hresp, hr, hbit, hd]
      simp
    · have hnone : s.deliverable = [] := by
        rw [hd, State.pending_of_empty s (Nat.lt_one_iff.mp hn)]
      rw [hresp, hr, hend, hnone]
      simp [List.replicate_succ]

/-- Settles O60: the reader's bits to come are those the producer wrote, padding included. -/
theorem readerReturnsWhatTheProducerWrote : Obligations.ReaderReturnsWhatTheProducerWrote := by
  intro bits n s hinv hp hn _ hb hm hrem
  have hserv : Serving s := ⟨hinv.sound, by simp [hp], by simp [State.canAnswer, hb, hm]⟩
  have hf : s.boundSource.mood.failed = false := by rw [hm]; rfl
  have hd : s.deliverable = bitSeq (producerBytes bits) := by
    rw [State.deliverable, State.pending_of_empty s hn, List.nil_append, Source.supply_of_not_failed _ hf, hrem]
  obtain ⟨t, hrun, hresp⟩ := hserv.issueReadBits hp n
  refine ⟨t, hrun, ?_⟩
  rw [State.responsesSince, hresp, List.drop_left, hd, bitSeq_length, (producerPadsWithZeros bits).2]
  rfl

end Sys2Proof.Machine
end

section
/-! SUPPORT. Proofs of the statements of 30_encoding.md: the fields of a word (R61), decoding and encoding (R62, R63,
R67, R68), the response word (R64), and the words the assembler emits (R68). -/

namespace Sys2Proof

/-! ## The fields of a word (R61) -/

@[simp] theorem imm8Field_assembleFields (imm8 : Byte) (rsv : BitVec 5) (op : BitVec 3) :
    imm8Field (assembleFields imm8 rsv op) = imm8 := by
  rw [imm8Field, assembleFields, BitVec.append_assoc]
  exact BitVec.extractLsb'_append_eq_left

@[simp] theorem rsvField_assembleFields (imm8 : Byte) (rsv : BitVec 5) (op : BitVec 3) :
    rsvField (assembleFields imm8 rsv op) = rsv :=
  calc (imm8 ++ rsv ++ op).extractLsb' 3 5
    _ = (imm8 ++ rsv).extractLsb' 0 5 := BitVec.extractLsb'_append_eq_of_le le_rfl
    _ = rsv := BitVec.extractLsb'_append_eq_right

@[simp] theorem opField_assembleFields (imm8 : Byte) (rsv : BitVec 5) (op : BitVec 3) :
    opField (assembleFields imm8 rsv op) = op :=
  BitVec.extractLsb'_append_eq_right

@[simp] theorem assembleFields_fields (w : Word) : assembleFields (imm8Field w) (rsvField w) (opField w) = w := by
  have hhigh : imm8Field w ++ rsvField w = w.extractLsb' 3 13 :=
    BitVec.extractLsb'_append_extractLsb'_eq_extractLsb' rfl
  calc imm8Field w ++ rsvField w ++ opField w
    _ = w.extractLsb' 3 13 ++ w.extractLsb' 0 3 := by rw [hhigh, opField]
    _ = w.extractLsb' 0 16 := BitVec.extractLsb'_append_extractLsb'_eq_extractLsb' rfl
    _ = w := BitVec.extractLsb'_eq_self

theorem assembleFields_and (imm8 imm8' : Byte) (rsv rsv' : BitVec 5) (op op' : BitVec 3) :
    assembleFields (imm8 &&& imm8') (rsv &&& rsv') (op &&& op') =
      assembleFields imm8 rsv op &&& assembleFields imm8' rsv' op' := by
  rw [assembleFields, assembleFields, assembleFields, BitVec.and_append, BitVec.and_append]

/-- The flag is bit 0 of the operand byte. -/
theorem flagField_eq_getLsbD_imm8Field (w : Word) : flagField w = (imm8Field w).getLsbD 0 := by
  simp [flagField, imm8Field]

/-! ## The fields as numbers -/

theorem imm8Field_toNat (w : Word) : (imm8Field w).toNat = w.toNat / 256 := by
  rw [imm8Field, BitVec.extractLsb'_toNat, Nat.shiftRight_eq_div_pow]
  omega

theorem imm8Field_eq_ofNat (w : Word) : imm8Field w = BitVec.ofNat 8 (w.toNat / 256) := by
  rw [← imm8Field_toNat, BitVec.ofNat_toNat, BitVec.setWidth_eq]

theorem flagField_eq_decide (w : Word) : flagField w = decide (w.toNat / 256 % 2 = 1) := by
  rw [flagField, BitVec.getLsbD, Nat.testBit_eq_decide_div_mod_eq]

theorem rsvField_eq_zero_iff (w : Word) : rsvField w = 0 ↔ w.toNat / 8 % 32 = 0 := by
  rw [← BitVec.toNat_inj, rsvField, BitVec.extractLsb'_toNat, Nat.shiftRight_eq_div_pow]
  rfl

theorem opField_eq_iff (w : Word) (op : BitVec 3) : opField w = op ↔ w.toNat % 8 = op.toNat := by
  rw [← BitVec.toNat_inj, opField, BitVec.extractLsb'_toNat, Nat.shiftRight_zero]

theorem rsvField_eq_of_lowByte_eq {w w' : Word} (h : w.toNat % 256 = w'.toNat % 256) : rsvField w = rsvField w' := by
  rw [← BitVec.toNat_inj, rsvField, rsvField, BitVec.extractLsb'_toNat, BitVec.extractLsb'_toNat,
    Nat.shiftRight_eq_div_pow, Nat.shiftRight_eq_div_pow]
  omega

theorem opField_eq_of_lowByte_eq {w w' : Word} (h : w.toNat % 256 = w'.toNat % 256) : opField w = opField w' := by
  have hop : w'.toNat % 8 = (opField w').toNat := (opField_eq_iff w' _).mp rfl
  rw [opField_eq_iff, ← hop]
  omega

/-! ## What a word decodes to (R62, R63, R67) -/

/-- A command's operand is the one a word holds in R62's place. -/
def Instr.OperandIn (w : Word) : Instr → Prop
  | .openSource => True
  | .readBit => True
  | .readByte => True
  | .writeBit flag => flag = flagField w
  | .writeByte b => b = imm8Field w
  | .close => True

/-- The words of a command: its row of R63's table, with the operand in R62's place. -/
structure Instr.HasWord (i : Instr) (w : Word) : Prop where
  rsv : rsvField w = 0
  op : opField w = opcode i
  operand : i.OperandIn w

theorem Instr.HasWord.decode_eq {i : Instr} {w : Word} (h : i.HasWord w) : decode w = .command i := by
  obtain ⟨hrsv, hop, hoperand⟩ := h
  cases i with
  | openSource | readBit | readByte | close => simp [decode, hrsv, hop, opcode]
  | writeBit flag => simp [decode, hrsv, hop, opcode, show flag = flagField w from hoperand]
  | writeByte b => simp [decode, hrsv, hop, opcode, show b = imm8Field w from hoperand]

theorem decode_eq_reserved {w : Word} (h : opField w = 0 ∨ opField w = 7 ∨ rsvField w ≠ 0) : decode w = .reserved := by
  by_cases hrsv : rsvField w = 0
  · rcases h with hop | hop | hne
    · simp [decode, hop]
    · simp [decode, hop]
    · exact absurd hrsv hne
  · rw [decode, if_pos hrsv]

/-- Every word stands for a command unless R63 reserves it. -/
theorem hasWord_or_reserved (w : Word) :
    (∃ i : Instr, i.HasWord w) ∨ (opField w = 0 ∨ opField w = 7 ∨ rsvField w ≠ 0) := by
  have hops : ∀ op : BitVec 3, op = 0 ∨ op = 1 ∨ op = 2 ∨ op = 3 ∨ op = 4 ∨ op = 5 ∨ op = 6 ∨ op = 7 := by decide
  by_cases hrsv : rsvField w = 0
  · rcases hops (opField w) with h | h | h | h | h | h | h | h
    · exact .inr (.inl h)
    · exact .inl ⟨.openSource, hrsv, h, trivial⟩
    · exact .inl ⟨.readBit, hrsv, h, trivial⟩
    · exact .inl ⟨.readByte, hrsv, h, trivial⟩
    · exact .inl ⟨.writeBit (flagField w), hrsv, h, rfl⟩
    · exact .inl ⟨.writeByte (imm8Field w), hrsv, h, rfl⟩
    · exact .inl ⟨.close, hrsv, h, trivial⟩
    · exact .inr (.inr (.inl h))
  · exact .inr (.inr (.inr hrsv))

theorem decode_eq_command_iff (w : Word) (i : Instr) : decode w = .command i ↔ i.HasWord w := by
  refine ⟨fun h => ?_, Instr.HasWord.decode_eq⟩
  rcases hasWord_or_reserved w with ⟨j, hj⟩ | hres
  · obtain rfl : j = i := Decoded.command.inj (hj.decode_eq.symm.trans h)
    exact hj
  · exact absurd ((decode_eq_reserved hres).symm.trans h) nofun

theorem decode_eq_reserved_iff (w : Word) :
    decode w = .reserved ↔ opField w = 0 ∨ opField w = 7 ∨ rsvField w ≠ 0 := by
  refine ⟨fun h => ?_, decode_eq_reserved⟩
  rcases hasWord_or_reserved w with ⟨j, hj⟩ | hres
  · exact absurd (hj.decode_eq.symm.trans h) nofun
  · exact hres

/-! ## Decode and encode (R61, R62, R63, R68) -/

theorem hasWord_encode (i : Instr) : i.HasWord (encode i) where
  rsv := rsvField_assembleFields _ _ _
  op := opField_assembleFields _ _ _
  operand := by
    cases i with
    | openSource | readBit | readByte | close => trivial
    | writeBit flag =>
      rw [Instr.OperandIn, flagField_eq_getLsbD_imm8Field, encode, imm8Field_assembleFields]
      simp [operandByte]
    | writeByte b => exact (imm8Field_assembleFields _ _ _).symm

/-- The bits of the operand byte that R62 does not ignore. -/
def operandMask : Instr → Byte
  | .openSource => 0
  | .readBit => 0
  | .readByte => 0
  | .writeBit _ => 1
  | .writeByte _ => BitVec.allOnes 8
  | .close => 0

theorem Instr.OperandIn.operandByte_eq {i : Instr} {w : Word} (h : i.OperandIn w) :
    operandByte i = imm8Field w &&& operandMask i := by
  cases i with
  | openSource | readBit | readByte | close => exact BitVec.and_zero.symm
  | writeBit flag =>
    obtain rfl : flag = flagField w := h
    rw [flagField_eq_getLsbD_imm8Field]
    exact (BitVec.and_one_eq_setWidth_ofBool_getLsbD).symm
  | writeByte b =>
    obtain rfl : b = imm8Field w := h
    exact BitVec.and_allOnes.symm

/-- A command's own word is any word of it with the ignored bits 0. -/
theorem Instr.HasWord.encode_eq {i : Instr} {w : Word} (h : i.HasWord w) :
    encode i = w &&& assembleFields (operandMask i) (BitVec.allOnes 5) (BitVec.allOnes 3) :=
  calc assembleFields (operandByte i) 0 (opcode i)
    _ = assembleFields (imm8Field w &&& operandMask i) (rsvField w &&& BitVec.allOnes 5)
        (opField w &&& BitVec.allOnes 3) := by
      rw [h.operand.operandByte_eq, h.rsv, h.op, BitVec.and_allOnes, BitVec.and_allOnes]
    _ = w &&& assembleFields (operandMask i) (BitVec.allOnes 5) (BitVec.allOnes 3) := by
      rw [assembleFields_and, assembleFields_fields]

/-- Settles O3: each command's own word is a word of it, and masking a word of it leaves its own word. -/
theorem decodeAndEncodeAgree : Obligations.DecodeAndEncodeAgree := by
  refine ⟨fun i => (hasWord_encode i).decode_eq, fun w i h => ?_⟩
  rw [((decode_eq_command_iff w i).mp h).encode_eq]
  cases i with
  | openSource | readBit | readByte | close => rfl
  | writeBit flag => exact congrArg (w &&& ·) (show assembleFields 1 _ _ = 0x01FF by decide)
  | writeByte b => exact congrArg (w &&& ·) (show assembleFields (BitVec.allOnes 8) _ _ = 0xFFFF by decide)

namespace Machine

/-! ## Ignored bits (R62, R80, R81) -/

/-- What an operation code does: the writes are misuses whatever their operand (R80, R81), as is a reserved code
(R144). -/
def execOpcode (op : BitVec 3) (s : State) : Host.Outcome State Fault Refusal :=
  if op = 1 then execOpenSource s
  else if op = 2 then execReadBit s
  else if op = 3 then execReadByte s
  else if op = 6 then execClose s
  else .next s.misuse

theorem exec_eq_execOpcode (i : Instr) (s : State) : exec i s = execOpcode (opcode i) s := by
  cases i <;> rfl

/-- What a word does, from the fields of its low byte alone. -/
theorem runWord_eq_execOpcode (w : Word) (s : State) :
    runWord w s = if rsvField w = 0 then execOpcode (opField w) s else .next s.misuse := by
  rcases hasWord_or_reserved w with ⟨i, hi⟩ | hres
  · rw [runWord_of_command s hi.decode_eq, exec_eq_execOpcode, if_pos hi.rsv, hi.op]
  · rw [runWord_of_reserved s (decode_eq_reserved hres)]
    rcases hres with hop | hop | hrsv
    · simp [hop, execOpcode]
    · simp [hop, execOpcode]
    · rw [if_neg hrsv]

/-- Settles O4: a word's operand is read from its place, and what it does hangs on the fields of its low byte. -/
theorem ignoredBitsHaveNoEffect : Obligations.IgnoredBitsHaveNoEffect := by
  refine ⟨fun w b h => ?_, fun w f h => ((decode_eq_command_iff w _).mp h).operand, fun w w' s h => ?_⟩
  · rw [← imm8Field_toNat, ((decode_eq_command_iff w _).mp h).operand]
  · rw [runWord_eq_execOpcode, runWord_eq_execOpcode, rsvField_eq_of_lowByte_eq h, opField_eq_of_lowByte_eq h]

/-! ## Words by number (R63, R67) -/

/-- Settles O1: each row of R67 is a row of R63's table with the fields read as numbers. -/
theorem decodingIsTotalAndExact : Obligations.DecodingIsTotalAndExact := by
  intro w
  refine ⟨fun hrsv => decode_eq_reserved (.inr (.inr fun h => hrsv ((rsvField_eq_zero_iff w).mp h))), fun h => ?_⟩
  have hrsv : rsvField w = 0 := (rsvField_eq_zero_iff w).mpr h
  have hop (op : BitVec 3) : w.toNat % 8 = op.toNat → opField w = op := (opField_eq_iff w op).mpr
  exact ⟨fun h => decode_eq_reserved (.inl (hop 0 h)),
    fun h => Instr.HasWord.decode_eq ⟨hrsv, hop 1 h, trivial⟩,
    fun h => Instr.HasWord.decode_eq ⟨hrsv, hop 2 h, trivial⟩,
    fun h => Instr.HasWord.decode_eq ⟨hrsv, hop 3 h, trivial⟩,
    fun h => Instr.HasWord.decode_eq ⟨hrsv, hop 4 h, (flagField_eq_decide w).symm⟩,
    fun h => Instr.HasWord.decode_eq ⟨hrsv, hop 5 h, (imm8Field_eq_ofNat w).symm⟩,
    fun h => Instr.HasWord.decode_eq ⟨hrsv, hop 6 h, trivial⟩,
    fun h => decode_eq_reserved (.inr (.inl (hop 7 h)))⟩

/-- R63's condition on the number of a word. -/
abbrev ReservedNumber (n : Nat) : Prop := n % 8 = 0 ∨ n % 8 = 7 ∨ n / 8 % 32 ≠ 0

/-- Whether a word is reserved, from its number (R63). -/
theorem decode_ofNat_eq_reserved_iff (n : Nat) :
    decode (BitVec.ofNat 16 n) = .reserved ↔ ReservedNumber n := by
  rw [decode_eq_reserved_iff, Ne, rsvField_eq_zero_iff, opField_eq_iff, opField_eq_iff, BitVec.toNat_ofNat]
  change _ % 8 = 0 ∨ _ % 8 = 7 ∨ _ ↔ _
  omega

/-- A property of the number that repeats with period `a` is counted once per period. -/
theorem count_mul_of_periodic {p : Nat → Prop} [DecidablePred p] {a : Nat} (hp : Function.Periodic p a) (k : Nat) :
    Nat.count p (a * k) = k * Nat.count p a := by
  have hshift (m : Nat) : (fun n => p (a * m + n)) = p := by
    funext n
    rw [Nat.add_comm, Nat.mul_comm]
    exact hp.nat_mul m n
  induction k with
  | zero => simp
  | succ k ih =>
    rw [Nat.mul_succ, Nat.count_add, ih, Nat.succ_mul]
    simp only [hshift]

theorem reservedNumber_periodic : Function.Periodic ReservedNumber 256 := by
  intro n
  rw [eq_iff_iff]
  omega

/-- Of the low bytes with the reserved field 0 two are reserved, of the others all. -/
theorem count_reservedNumber_lowByte : Nat.count ReservedNumber 256 = 250 := by
  have hrsv : Nat.count (fun k => ReservedNumber (8 + k)) 248 = 248 :=
    Nat.count_iff_forall.mpr fun k hk => .inr (.inr (by omega))
  have hop : Nat.count ReservedNumber 8 = 2 := by decide
  rw [show 256 = 8 + 248 from rfl, Nat.count_add, hrsv, hop]

/-- Settles O2: 250 of the 256 low bytes are reserved, and each is the low byte of 256 words. -/
theorem reservedWordsAre64000 : Obligations.ReservedWordsAre64000 := by
  refine ⟨decode_eq_reserved_iff, ?_⟩
  simp only [decode_ofNat_eq_reserved_iff]
  exact (count_mul_of_periodic reservedNumber_periodic 256).trans (by rw [count_reservedNumber_lowByte])

/-- Settles O5: the words are evaluated. -/
theorem wordsOfTheSpecDecode : Obligations.WordsOfTheSpecDecode := by
  unfold Obligations.WordsOfTheSpecDecode
  decide

/-! ## The response word (R64) -/

theorem toNat_append_eq_add {m n : Nat} (x : BitVec m) (y : BitVec n) : (x ++ y).toNat = 2 ^ n * x.toNat + y.toNat := by
  rw [BitVec.toNat_append, ← Nat.shiftLeft_add_eq_or_of_lt y.isLt, Nat.shiftLeft_eq, Nat.mul_comm]

/-- Settles O6: the word's number is that of its two fields, and `respond` is the update R64 gives. -/
theorem responseWordAndRespond : Obligations.ResponseWordAndRespond :=
  ⟨rfl, rfl, fun p => by cases p <;> decide, fun r => toNat_append_eq_add r.status.code r.data, fun _ _ _ => rfl⟩

/-! ## The assembler (R68) -/

theorem encode_toNat (i : Instr) : (encode i).toNat = (opcode i).toNat + (operandByte i).toNat * 256 := by
  have hrsv : (0 : BitVec 5).toNat = 0 := rfl
  rw [encode, assembleFields, toNat_append_eq_add, toNat_append_eq_add, hrsv]
  omega

theorem encode_eq_ofNat (i : Instr) :
    encode i = BitVec.ofNat 16 ((opcode i).toNat + (operandByte i).toNat * 256) := by
  rw [← encode_toNat, BitVec.ofNat_toNat, BitVec.setWidth_eq]

theorem assemble_of_not_wellFormed {line : AsmLine} (h : line.wellFormed = false) :
    AsmLine.assemble line = .error .outOfRange := by
  simp [AsmLine.assemble, h]

theorem assemble_writeBit {f : Nat} (hf : f ≤ 1) :
    AsmLine.assemble (.writeBit f) = .ok (BitVec.ofNat 16 (0x0004 + f * 256)) := by
  interval_cases f <;> rfl

theorem assemble_writeByte {b : Nat} (hb : b ≤ 255) :
    AsmLine.assemble (.writeByte b) = .ok (BitVec.ofNat 16 (0x0005 + b * 256)) := by
  have hbyte : (BitVec.ofNat 8 b).toNat = b := Nat.mod_eq_of_lt (by omega)
  have hwf : (AsmLine.writeByte b).wellFormed = true := decide_eq_true hb
  have hword := encode_eq_ofNat (.writeByte (BitVec.ofNat 8 b))
  rw [operandByte, hbyte] at hword
  rw [AsmLine.assemble, if_pos hwf, hword]
  rfl

theorem assemble_rawWord {v : Nat} (hv : v ≤ 65535) : AsmLine.assemble (.rawWord v) = .ok (BitVec.ofNat 16 v) :=
  if_pos (decide_eq_true hv)

/-- Settles O7: a line in range assembles to its opcode with the operand byte above it, and no other line assembles. -/
theorem assemblerEmitsTheWords : Obligations.AssemblerEmitsTheWords :=
  ⟨rfl, rfl, rfl, rfl, fun _ => assemble_writeBit, fun _ => assemble_writeByte, fun _ => assemble_rawWord,
    fun _ hf => assemble_of_not_wellFormed (decide_eq_false hf.not_ge),
    fun _ hb => assemble_of_not_wellFormed (decide_eq_false hb.not_ge),
    fun _ hv => assemble_of_not_wellFormed (decide_eq_false hv.not_ge)⟩

end Machine
end Sys2Proof
end

section
/-! SUPPORT. Proofs of the statements of 40_write_commands.md: the words of the writes (R62, R63), and the misuse each of
them is (R80, R81, R146). -/

namespace Sys2Proof

/-- A word whose low byte is a command's opcode has its reserved field 0 (R61). -/
theorem Instr.hasWord_of_lowByte {i : Instr} {w : Word} (hlow : w.toNat % 256 = (opcode i).toNat)
    (hoperand : i.OperandIn w) : i.HasWord w where
  rsv := by
    have hop := (opcode i).isLt
    rw [rsvField_eq_zero_iff]
    omega
  op := by
    rw [opField_eq_iff]
    omega
  operand := hoperand

namespace Machine

theorem Phase.afterMisuse_eq_ite (p : Phase) : p.afterMisuse = if p = .read then .fault else p := by
  cases p <;> rfl

/-- The whole state after a misuse (R146). -/
theorem misuse_eq (s : State) :
    s.misuse = { s with
      phase := (if s.phase = .read then .fault else s.phase)
      rsp := some ⟨.misusedStream, 0⟩, responses := s.responses ++ [⟨.misusedStream, 0⟩], inFlight := none } := by
  rw [← Phase.afterMisuse_eq_ite]
  rfl

/-- Settles O31: a write's low byte is its opcode alone, and both writes are the one misuse. -/
theorem writeCommandsAreRejected : Obligations.WriteCommandsAreRejected := by
  refine ⟨fun w hlow => ?_, fun w hlow => ?_, fun s f b => ⟨?_, ?_⟩⟩
  · exact Instr.HasWord.decode_eq (Instr.hasWord_of_lowByte hlow (flagField_eq_decide w).symm)
  · exact Instr.HasWord.decode_eq (Instr.hasWord_of_lowByte hlow (imm8Field_eq_ofNat w).symm)
  · exact congrArg Host.Outcome.next (misuse_eq s)
  · exact congrArg Host.Outcome.next (misuse_eq s)

end Machine
end Sys2Proof
end

section
/-! SUPPORT. Rules for a read command just begun that the proofs of the statements of 41_read_commands.md share: which
words are reads, and what a read answers and leaves, from the bits to come (R48, R94, R95, R96, R100). -/

namespace Sys2Proof.Machine

/-! ## Which words are reads (R48) -/

/-- Only the read commands need bits (R48). -/
theorem bitsNeeded_pos_iff (d : Decoded) :
    0 < bitsNeeded d ↔ ∃ i : Instr, d = .command i ∧ (i = .readBit ∨ i = .readByte) := by
  cases d with
  | reserved => simp [bitsNeeded]
  | command i => cases i <;> simp [bitsNeeded]

/-- In READ the read command `i` is `op` gone on with: all the bits it needs are still wanted. -/
structure Begins (i : Instr) (op : InFlight) : Prop where
  wanted : op.wanted = bitsNeeded (.command i)
  plausible : op.plausible = true
  exec : ∀ s : State, s.phase = .read → exec i s = .next (resume op s)

theorem begins_readBit : Begins .readBit .readBit := ⟨rfl, rfl, execReadBit_read⟩

theorem begins_readByte : Begins .readByte (.readByte 8 0) := ⟨rfl, rfl, execReadByte_read⟩

theorem exists_begins {i : Instr} (hi : i = .readBit ∨ i = .readByte) : ∃ op : InFlight, Begins i op := by
  rcases hi with rfl | rfl
  · exact ⟨_, begins_readBit⟩
  · exact ⟨_, begins_readByte⟩

/-- A word that needs bits is a read, begun in READ with all its bits still wanted. -/
theorem runWord_of_bitsNeeded {w : Word} (hw : 0 < bitsNeeded (decode w)) :
    ∃ op : InFlight, op.wanted = bitsNeeded (decode w) ∧ op.wanted ≤ 8 ∧
      ∀ s : State, s.phase = .read → runWord w s = .next (resume op s) := by
  obtain ⟨i, hd, hi⟩ := (bitsNeeded_pos_iff _).mp hw
  obtain ⟨op, hop⟩ := exists_begins hi
  exact ⟨op, hd ▸ hop.wanted, (InFlight.wanted_of_plausible hop.plausible).2,
    fun s hp => (runWord_of_command s hd).trans (hop.exec s hp)⟩

/-! ## What a read comes to, by how many bits it can have (R94, R95, R96) -/

/-- A read with enough bits to be had is answered with the first of them. -/
theorem resume_of_enough (op : InFlight) (s : State) (h : s.Sound) (hw : op.wanted ≤ 8)
    (ha : op.wanted ≤ s.nbits ∨ s.canAnswer = true) (hd : op.wanted ≤ s.deliverable.length) :
    ∃ t, resume op s = t.respond .ok (accumulate op.gathered (s.deliverable.take op.wanted)) ∧
      Took s (s.deliverable.take op.wanted) t ∧ t.deliverable = s.deliverable.drop op.wanted :=
  resume_of_deliverable op s h hw ha _ _ (List.take_append_drop _ _).symm (List.length_take_of_le hd)

/-- A read with too few bits to be had, from a source that answers, fails: the source has none left, and the buffered bits
are lost (R96). -/
theorem resume_of_too_few (op : InFlight) (s : State) (h : s.Sound) (hw : op.wanted ≤ 8) (hc : s.canAnswer = true)
    (hd : s.deliverable.length < op.wanted) :
    s.boundSource.supply = [] ∧
      resume op s = State.raise .endOfData { s with nbits := 0, requests := s.requests ++ [⟨s.cfg.capBytes, 0⟩] } := by
  rcases resume_cases op s h hw with ⟨bits, t, _, hlen, hk⟩ | ⟨he, _, hs, _⟩ | ⟨_, _, hc'⟩
  · rw [hk.deliverable, List.length_append] at hd
    omega
  · exact ⟨hs, he⟩
  · simp [hc] at hc'

/-! ## The answer of a reader whose source answers (R94, R95, R100) -/

/-- The answer of a read, from the bits to come (R94, R95). -/
def InFlight.answer (bits : List Bool) (op : InFlight) : Response :=
  if bits.length < op.wanted then ⟨.endOfData, 0⟩ else ⟨.ok, accumulate op.gathered (bits.take op.wanted)⟩

theorem InFlight.too_few_of_answer_endOfData {op : InFlight} {bits : List Bool}
    (h : op.answer bits = ⟨.endOfData, 0⟩) : bits.length < op.wanted := by
  by_contra hge
  simp [InFlight.answer, hge] at h

/-- From `s` to `t` there is the one response `r`, `rest` is still to come, and the block is bound and free with a source
that answers. -/
structure Answers (s : State) (r : Response) (rest : List Bool) (t : State) : Prop where
  serving : Serving t
  free : t.inFlight = none
  responses : t.responses = s.responses ++ [r]
  rsp : t.rsp = some r
  deliverable : t.deliverable = rest

theorem Serving.answers_misuse {s : State} (h : Serving s) : Answers s ⟨.misusedStream, 0⟩ s.deliverable s.misuse :=
  ⟨h.misuse, rfl, rfl, rfl, misuse_deliverable s⟩

/-- Answer and rest of a read are given by the bits to come: neither buffer nor chunks nor capacity matter (R100). -/
theorem Serving.answers_resume {s : State} (h : Serving s) (op : InFlight) (hw : op.wanted ≤ 8) :
    Answers s (op.answer s.deliverable) (s.deliverable.drop op.wanted) (resume op s) := by
  rcases Nat.lt_or_ge s.deliverable.length op.wanted with hlt | hge
  · obtain ⟨hs, he⟩ := resume_of_too_few op s h.sound hw h.answers hlt
    rw [he, InFlight.answer, if_pos hlt, List.drop_of_length_le hlt.le]
    exact ⟨(h.exhaust _).respond _ _, rfl, rfl, rfl, State.deliverable_eq_nil _ rfl hs⟩
  · obtain ⟨t, he, hk, hrest⟩ := resume_of_enough op s h.sound hw (.inr h.answers) hge
    rw [he, InFlight.answer, if_neg (Nat.not_lt.mpr hge)]
    refine ⟨(h.took hk).respond _ _, rfl, ?_, rfl, ?_⟩
    · rw [respond_responses, hk.keeps.responses]
    · rw [respond_deliverable, hrest]

end Sys2Proof.Machine
end

section
/-! SUPPORT. Proof of the statement of 41_read_commands.md on readers that differ in capacity, chunking and read-ahead
(R100): one word keeps them alike, because what a read answers depends only on the bits to come. -/

namespace Sys2Proof.Machine

/-- In a bound block a word that is neither CLOSE nor a read in READ is a misuse (R149). -/
theorem runWord_of_bound_not_read {w : Word} {s : State} (hb : s.phase ≠ .closed) (hw : decode w ≠ .command .close)
    (hr : ¬ (s.phase = .read ∧ 0 < bitsNeeded (decode w))) : runWord w s = .next s.misuse := by
  rcases runWord_cases w s with
    ⟨he, _⟩ | ⟨_, _, hp, _⟩ | ⟨_, _, _, hp, _⟩ | ⟨_, hd⟩ | ⟨_, hd, hp⟩ | ⟨_, hd, hp⟩
  · exact he
  · exact absurd hp hb
  · exact absurd hp hb
  · exact absurd hd hw
  · exact absurd ⟨hp, by rw [hd]; decide⟩ hr
  · exact absurd ⟨hp, by rw [hd]; decide⟩ hr

namespace SameToIssuer

variable {s s' : State}

theorem servingLeft (h : SameToIssuer s s') : Serving s := ⟨h.left.sound, h.bound, h.answersLeft⟩

theorem servingRight (h : SameToIssuer s s') : Serving s' := ⟨h.right.sound, h.phase ▸ h.bound, h.answersRight⟩

theorem of_answers {t t' : State} {r : Response} {rest : List Bool} (ht : Answers s r rest t)
    (ht' : Answers s' r rest t') (hp : t.phase = t'.phase) : SameToIssuer t t' where
  left := ht.serving.sound.inv_of_free ht.free
  right := ht'.serving.sound.inv_of_free ht'.free
  phase := hp
  bound := ht.serving.bound
  freeLeft := ht.free
  freeRight := ht'.free
  answersLeft := ht.serving.answers
  answersRight := ht'.serving.answers
  bits := ht.deliverable.trans ht'.deliverable.symm

/-- One word but CLOSE: the same answer, and the readers stay alike. -/
theorem runWord_alike (h : SameToIssuer s s') (w : Word) (hw : decode w ≠ .command .close) :
    ∃ (t t' : State) (r : Response), runWord w s = .next t ∧ runWord w s' = .next t' ∧
      t.responses = s.responses ++ [r] ∧ t'.responses = s'.responses ++ [r] ∧ SameToIssuer t t' := by
  by_cases hr : s.phase = .read ∧ 0 < bitsNeeded (decode w)
  · obtain ⟨hp, hn⟩ := hr
    obtain ⟨op, _, hop, hrun⟩ := runWord_of_bitsNeeded hn
    have hs := h.servingLeft.answers_resume op hop
    have hs' := h.servingRight.answers_resume op hop
    rw [← h.bits] at hs'
    have hphase : (resume op s).phase = (resume op s').phase := by
      rw [(resume_ends op s).phase_eq, (resume_ends op s').phase_eq, h.phase]
    exact ⟨_, _, _, hrun s hp, hrun s' (h.phase ▸ hp), hs.responses, hs'.responses, .of_answers hs hs' hphase⟩
  · have hs := h.servingLeft.answers_misuse
    have hs' := h.servingRight.answers_misuse
    rw [← h.bits] at hs'
    exact ⟨_, _, _, runWord_of_bound_not_read h.bound hw hr,
      runWord_of_bound_not_read h.servingRight.bound hw (h.phase ▸ hr), hs.responses, hs'.responses,
      .of_answers hs hs' (congrArg Phase.afterMisuse h.phase)⟩

theorem issueAll_alike (h : SameToIssuer s s') (ws : List Word) (hws : ∀ w ∈ ws, decode w ≠ .command .close) :
    ∃ (t t' : State) (rs : List Response), issueAll ws s = .next t ∧ issueAll ws s' = .next t' ∧
      t.responses = s.responses ++ rs ∧ t'.responses = s'.responses ++ rs ∧ SameToIssuer t t' := by
  induction ws generalizing s s' with
  | nil => exact ⟨s, s', [], rfl, rfl, (List.append_nil _).symm, (List.append_nil _).symm, h⟩
  | cons w ws ih =>
    obtain ⟨t, t', r, he, he', hr, hr', hsame⟩ := h.runWord_alike w (hws w List.mem_cons_self)
    obtain ⟨u, u', rs, hes, hes', hrs, hrs', hsame'⟩ := ih hsame fun v hv => hws v (List.mem_cons_of_mem w hv)
    refine ⟨u, u', r :: rs, (issueAll_cons ws he).trans hes, (issueAll_cons ws he').trans hes', ?_, ?_, hsame'⟩
    · rw [hrs, hr, List.append_assoc, List.singleton_append]
    · rw [hrs', hr', List.append_assoc, List.singleton_append]

end SameToIssuer

/-- Settles O58, by induction on the words: each is answered from the phase and the bits to come alone. -/
theorem responsesIgnoreChunkingAndCapacity : Obligations.ResponsesIgnoreChunkingAndCapacity := by
  intro ws s s' h hws
  obtain ⟨t, t', rs, he, he', hr, hr', hsame⟩ := h.issueAll_alike ws hws
  refine ⟨t, t', he, he', ?_, hsame⟩
  rw [State.responsesSince, State.responsesSince, hr, hr', List.drop_left, List.drop_left]

end Sys2Proof.Machine
end

section
/-! SUPPORT. Proof of the statement of 41_read_commands.md on what a refill stores and when it fails (R91, R92). -/

namespace Sys2Proof.Machine

/-- A refill of a source that answers, from the answer (R91). -/
theorem refill_of_canAnswer (s : State) (hc : s.canAnswer = true) :
    refill s =
      if s.boundSource.answer s.cfg.capBytes = [] then .fail (s.afterRequest s.cfg.capBytes)
      else .filled ((s.afterRequest s.cfg.capBytes).loadBuffer (s.boundSource.answer s.cfg.capBytes)) := by
  cases ha : s.boundSource.answer s.cfg.capBytes <;> simp [refill, srcRead, hc, ha]

theorem State.Sound.refill_of_exhausted {s : State} (h : s.Sound) (hc : s.canAnswer = true)
    (hs : s.boundSource.supply = []) : refill s = .fail (s.afterRequest s.cfg.capBytes) := by
  rw [refill_of_canAnswer s hc, if_pos ((Source.answer_eq_nil _ _ h.capBytes_pos).mpr hs)]

theorem State.Sound.refill_of_supply {s : State} (h : s.Sound) (hc : s.canAnswer = true)
    (hs : s.boundSource.supply ≠ []) :
    refill s = .filled ((s.afterRequest s.cfg.capBytes).loadBuffer (s.boundSource.answer s.cfg.capBytes)) := by
  rw [refill_of_canAnswer s hc, if_neg (mt (Source.answer_eq_nil _ _ h.capBytes_pos).mp hs)]

/-- The last bit fetched stands in cell 0, the first in the top cell (R92). -/
theorem loadBuffer_cell_of_byte (bytes : List Byte) (s : State) {j k : Nat} {b : Byte} (hj : bytes[j]? = some b)
    (hk : k < 8) : (s.loadBuffer bytes).cell (8 * bytes.length - 1 - (8 * j + k)) = b.getLsbD (7 - k) := by
  obtain ⟨hlt, rfl⟩ := List.getElem?_eq_some_iff.mp hj
  have hbit := bitSeq_getElem? bytes j k hlt hk
  rw [State.cell_reverse _ (bitSeq bytes) _ rfl _ (by rw [bitSeq_length]; omega), ← Option.some.injEq, ← hbit,
    ← List.getElem?_eq_getElem]
  congr 1
  rw [bitSeq_length]
  omega

/-- The cells above the bits fetched keep their values (R91). -/
theorem loadBuffer_cell_above (bytes : List Byte) (s : State) {i : Nat} (hi : 8 * bytes.length ≤ i) :
    (s.loadBuffer bytes).cell i = s.cell i := by
  have hlen : (bitSeq bytes).reverse.length = 8 * bytes.length := by rw [List.length_reverse, bitSeq_length]
  have hget : ((bitSeq bytes).reverse ++ s.buf.drop (8 * bytes.length))[i]? = s.buf[i]? := by
    rw [List.getElem?_append_right (hlen.trans_le hi), hlen, List.getElem?_drop, Nat.add_sub_cancel' hi]
  rw [State.cell, State.cell, loadBuffer_buf, List.getD_eq_getElem?_getD, hget, List.getD_eq_getElem?_getD]

/-- Settles O15, by whether the source has anything to supply: the answer is loaded, or only the request is recorded. -/
theorem refillStorageOrder : Obligations.RefillStorageOrder := by
  intro s h hc
  by_cases hs : s.boundSource.supply = []
  · have he := h.refill_of_exhausted hc hs
    refine ⟨fun t ht => ?_, fun t ht => ?_, fun hne => absurd hs hne, fun _ => ⟨_, he⟩, ?_⟩
    · simp [he] at ht
    · obtain rfl := Refill.fail.inj (he.symm.trans ht)
      exact ⟨hs, afterRequest_buf _ s, afterRequest_nbits _ s⟩
    · simp [he]
  · have he := h.refill_of_supply hc hs
    refine ⟨fun t ht => ?_, fun t ht => ?_, fun _ => ⟨_, he⟩, fun hnil => absurd hnil hs, ?_⟩
    · obtain rfl := Refill.filled.inj (he.symm.trans ht)
      have hle : (s.boundSource.answer s.cfg.capBytes).length ≤ s.cfg.capBytes := by
        rw [Source.answer_length]
        exact (s.boundSource.pick_le _).trans (Nat.min_le_right _ _)
      refine ⟨_, rfl, mt (Source.answer_eq_nil _ _ h.capBytes_pos).mp hs, rfl, ?_, fun j k b hj hk => ?_, fun i hi => ?_⟩
      · rw [loadBuffer_nbits, h.capBits_eq]
        exact Nat.mul_le_mul_left 8 hle
      · exact loadBuffer_cell_of_byte _ _ hj hk
      · rw [loadBuffer_cell_above _ _ hi, State.cell_of_buf _ _ i (afterRequest_buf _ s)]
    · simp [he] at ht
    · simp [he]

end Sys2Proof.Machine
end

section
/-! SUPPORT. Proof of the statement of 41_read_commands.md on when a source request is answered (R93, R169). -/

namespace Sys2Proof.Machine

theorem Took.requests_ne_iff {s t : State} {bits : List Bool} (h : Took s bits t) :
    t.requests ≠ s.requests ↔ s.nbits < bits.length ∧ s.canAnswer = true := by
  rcases h.source with ⟨hle, rfl⟩ | ⟨hlt, hc, n, _, _, _, hreq, _⟩
  · simp [Nat.not_lt.mpr hle]
  · simp [hreq, hlt, hc]

/-- A read has a request answered just when it wants more bits than are buffered and the source answers (R93). -/
theorem resume_requests_ne_iff (op : InFlight) (s : State) (h : s.Sound) (hw : op.wanted ≤ 8) :
    (resume op s).requests ≠ s.requests ↔ s.nbits < op.wanted ∧ s.canAnswer = true := by
  rcases resume_cases op s h hw with ⟨bits, t, he, hlen, hk⟩ | ⟨he, hn, _, hc⟩ | ⟨he, _, hc⟩
  · rw [he, respond_requests, hk.requests_ne_iff, hlen]
  · simp [he, hn, hc]
  · simp [he, hc]

/-- Where it is no read in READ, a word makes no request. -/
theorem runWord_requests_of_not_read {w : Word} {s t : State} (hr : ¬ (s.phase = .read ∧ 0 < bitsNeeded (decode w)))
    (he : runWord w s = .next t) : t.requests = s.requests := by
  rcases runWord_cases w s with
    ⟨hrun, _⟩ | ⟨hrun, _⟩ | ⟨k, hrun, _⟩ | ⟨hrun, _⟩ | ⟨hrun, hd, hp⟩ | ⟨hrun, hd, hp⟩ <;>
    obtain rfl := Host.Outcome.next.inj (hrun.symm.trans he)
  · rfl
  · rfl
  · rfl
  · rfl
  · exact absurd ⟨hp, by rw [hd]; decide⟩ hr
  · exact absurd ⟨hp, by rw [hd]; decide⟩ hr

/-- Settles O17: only a read in READ makes a request, and then by what a read can come to. -/
theorem refillIsLazy : Obligations.RefillIsLazy := by
  intro w s t hinv _ he
  refine ⟨runWord_atMostOneRequest w s t hinv.sound he, ?_⟩
  by_cases hr : s.phase = .read ∧ 0 < bitsNeeded (decode w)
  · obtain ⟨op, hneed, hw, hrun⟩ := runWord_of_bitsNeeded hr.2
    obtain rfl := Host.Outcome.next.inj ((hrun s hr.1).symm.trans he)
    rw [resume_requests_ne_iff op s hinv.sound hw, hneed, and_iff_right hr.1]
  · have hsame := runWord_requests_of_not_read hr he
    exact iff_of_false (fun hne => hne hsame) fun ⟨hp, hn, _⟩ => hr ⟨hp, Nat.zero_lt_of_lt hn⟩

end Sys2Proof.Machine
end

section
/-! SUPPORT. Proofs of the statements of 41_read_commands.md on the results of READ_BIT and READ_BYTE (R90, R94, R95, R96,
R97). -/

namespace Sys2Proof.Machine

/-! ## Rules for both reads -/

/-- Outside READ a misuse changes nothing but what a response does (R146). -/
theorem misuse_eq_of_not_read {s : State} (hp : s.phase ≠ .read) :
    s.misuse = { s with
      rsp := some ⟨.misusedStream, 0⟩, responses := s.responses ++ [⟨.misusedStream, 0⟩], inFlight := none } := by
  rw [misuse_eq, if_neg hp]

theorem execReadBit_of_not_read {s : State} (hp : s.phase ≠ .read) : execReadBit s = .next s.misuse := if_neg hp

theorem execReadByte_of_not_read {s : State} (hp : s.phase ≠ .read) : execReadByte s = .next s.misuse := if_neg hp

/-- Bits that are all buffered are taken without a request (R93). -/
theorem Took.of_buffered {s t : State} {bits : List Bool} (h : Took s bits t) (hn : bits.length ≤ s.nbits) :
    t.nbits = s.nbits - bits.length ∧ t.requests = s.requests := by
  rcases h.source with ⟨_, rfl⟩ | ⟨hlt, _⟩
  · exact ⟨rfl, rfl⟩
  · omega

/-- Bits that are not all buffered are taken with one refill (R93, R94). -/
theorem Took.of_refilled {s t : State} {bits : List Bool} (h : Took s bits t) (hn : s.nbits < bits.length) :
    ∃ n : Nat, 1 ≤ n ∧ n ≤ s.cfg.capBytes ∧ t.nbits = 8 * n - (bits.length - s.nbits) ∧
      t.requests = s.requests ++ [⟨s.cfg.capBytes, n⟩] := by
  rcases h.source with ⟨hle, _⟩ | ⟨_, _, n, hpos, hcap, hnb, hreq, _⟩
  · omega
  · exact ⟨n, hpos, hcap, hnb, hreq⟩

/-- Bits that are not even to come are not all buffered. -/
theorem canAnswer_of_too_few {n : Nat} {s : State} (ha : n ≤ s.nbits ∨ s.canAnswer = true)
    (hd : s.deliverable.length < n) : s.canAnswer = true := by
  rw [State.deliverable_length] at hd
  exact ha.resolve_left (by omega)

/-! ## READ_BIT (R90, R95) -/

/-- Settles O20: PopBit takes the top cell. -/
theorem readBitFromTheBuffer : Obligations.ReadBitFromTheBuffer := by
  intro s hp hn
  have hpop : runReadBit s = s.dropTop.respond .ok (zext8 s.topBit) := by rw [runReadBit, popBit_of_bits s hn]
  exact (execReadBit_read s hp).trans (congrArg _ hpop)

/-- Settles O19, by whether a bit is to be had: a read of one bit, answered with it or failing. -/
theorem readBitResult : Obligations.ReadBitResult := by
  refine ⟨fun w hlow => (Instr.hasWord_of_lowByte (i := .readBit) hlow trivial).decode_eq, fun s hp => ?_,
    fun s hinv hp ha => ?_⟩
  · exact (execReadBit_of_not_read hp).trans (congrArg _ (misuse_eq_of_not_read hp))
  · have hexec : exec .readBit s = .next (resume .readBit s) := execReadBit_read s hp
    have hsound := hinv.sound
    have ha' : 1 ≤ s.nbits ∨ s.canAnswer = true := ha.imp_left Nat.pos_of_ne_zero
    cases hd : s.deliverable with
    | nil =>
      have hlen : s.deliverable.length < 1 := by rw [hd]; decide
      have hc := canAnswer_of_too_few ha' hlen
      obtain ⟨_, he⟩ := resume_of_too_few .readBit s hsound (by decide) hc hlen
      exact ⟨_, hexec.trans (congrArg _ he), hp, rfl, nofun, fun _ => ⟨rfl, rfl, rfl, rfl, rfl⟩⟩
    | cons b rest =>
      obtain ⟨t, he, hk, hrest⟩ := resume_of_deliverable .readBit s hsound (by decide) ha' [b] rest hd rfl
      refine ⟨_, hexec.trans (congrArg _ he), hk.keeps.phase.trans hp, hk.keeps.src, ?_, nofun⟩
      rintro _ _ ⟨⟩
      have hbit : accumulate 0 [b] = if b then 0x01 else 0x00 := by cases b <;> rfl
      refine ⟨by rw [respond_rsp, ← hbit]; rfl, by rw [respond_deliverable, hrest], fun hn => ?_, fun hn => ?_⟩
      · exact hk.of_buffered (Nat.pos_of_ne_zero hn)
      · simpa [hn] using hk.of_refilled (hn.trans_lt Nat.one_pos)

/-! ## READ_BYTE (R94, R96) -/

/-- Only the first eight bits count in a byte's value. -/
theorem byteValue_take_eight (bits : List Bool) : byteValue (bits.take 8) = byteValue bits := by
  refine Finset.sum_congr rfl fun k hk => ?_
  rw [List.getD_eq_getElem?_getD, List.getElem?_take_of_lt (Finset.mem_range.mp hk), List.getD_eq_getElem?_getD]

/-- Settles O23: READ_BYTE is a read of eight bits, and too few are to be had. -/
theorem failingReadByteIsNotUndone : Obligations.FailingReadByteIsNotUndone := by
  intro s hinv hp hc hd
  obtain ⟨hs, he⟩ := resume_of_too_few (.readByte 8 0) s hinv.sound le_rfl hc hd
  refine ⟨(execReadByte_read s hp).trans (congrArg _ he), ?_⟩
  rw [State.deliverable_of_nothing_left s hs, State.pending_length]

/-- Settles O21, by whether eight bits are to be had: a read of eight bits, answered with their byte or failing. -/
theorem readByteResult : Obligations.ReadByteResult := by
  refine ⟨fun w hlow => (Instr.hasWord_of_lowByte (i := .readByte) hlow trivial).decode_eq, fun s hp => ?_,
    fun s hinv hp ha => ?_⟩
  · exact (execReadByte_of_not_read hp).trans (congrArg _ (misuse_eq_of_not_read hp))
  · have hexec : exec .readByte s = .next (resume (.readByte 8 0) s) := execReadByte_read s hp
    have hsound := hinv.sound
    rcases Nat.lt_or_ge s.deliverable.length 8 with hlt | hge
    · have hc := canAnswer_of_too_few ha hlt
      obtain ⟨hs, he⟩ := resume_of_too_few (.readByte 8 0) s hsound le_rfl hc hlt
      refine ⟨_, hexec.trans (congrArg _ he), hp, rfl, fun hge => absurd hlt (Nat.not_lt.mpr hge), fun _ => ?_⟩
      exact ⟨rfl, rfl, State.deliverable_eq_nil _ rfl hs, rfl⟩
    · obtain ⟨t, he, hk, hrest⟩ := resume_of_enough (.readByte 8 0) s hsound le_rfl ha hge
      have hlen : (s.deliverable.take 8).length = 8 := List.length_take_of_le hge
      refine ⟨_, hexec.trans (congrArg _ he), hk.keeps.phase.trans hp, hk.keeps.src, fun _ => ?_,
        fun hlt => absurd hge (Nat.not_le.mpr hlt)⟩
      refine ⟨⟨_, rfl, ?_⟩, by rw [respond_deliverable, hrest]; rfl, fun hn => ?_, fun hn => ?_⟩
      · exact (accumulate_eight _ hlen).trans (byteValue_take_eight s.deliverable)
      · simpa only [respond_nbits, respond_requests, InFlight.wanted, hlen] using hk.of_buffered (hlen.trans_le hn)
      · simpa only [respond_nbits, respond_requests, InFlight.wanted, hlen] using hk.of_refilled (hn.trans_eq hlen.symm)

/-! ## EndOfData again (R97) -/

/-- Settles O24: the first read leaves nothing to be had, so the second one fails too. -/
theorem endOfDataRepeats : Obligations.EndOfDataRepeats := by
  intro i j s t hinv hp hc hi hj he hr
  obtain ⟨first, hfirst⟩ := exists_begins hi
  obtain ⟨second, hsecond⟩ := exists_begins hj
  obtain rfl := Host.Outcome.next.inj ((hfirst.exec s hp).symm.trans he)
  have hserv : Serving s := ⟨hinv.sound, by simp [hp], hc⟩
  have hans := hserv.answers_resume first (InFlight.wanted_of_plausible hfirst.plausible).2
  have hfew := InFlight.too_few_of_answer_endOfData (Option.some.inj (hans.rsp.symm.trans hr))
  have hnone : (resume first s).deliverable = [] := hans.deliverable.trans (List.drop_of_length_le hfew.le)
  have hphase : (resume first s).phase = .read := (resume_ends first s).phase_eq.trans hp
  have hagain := resume_of_nothing_deliverable second _ hans.serving.sound
    (InFlight.wanted_of_plausible hsecond.plausible) hans.serving.answers hnone
  rw [(resume_ends first s).cfg_eq] at hagain
  exact ⟨hphase, _, (hsecond.exec _ hphase).trans (congrArg _ hagain), rfl, hphase, rfl, rfl⟩

end Sys2Proof.Machine
end

section
/-! SUPPORT. Proofs of the statements of 42_lifecycle.md: what OPEN and CLOSE do in every phase (R120, R121). -/

namespace Sys2Proof.Machine

/-! ## OPEN (R120) -/

theorem execOpenSource_of_no_handle {s : State} (hp : s.phase = .closed) (hs : s.srcIn = none) :
    execOpenSource s = .next (s.raise .ioUnavailable) := by
  simp [execOpenSource, hp, sourceOperand, hs]

theorem execOpenSource_of_not_closed {s : State} (hp : s.phase ≠ .closed) : execOpenSource s = .next s.misuse := if_neg hp

/-- A misuse of a bound block leaves it in FAULT (R146). -/
theorem Phase.afterMisuse_of_not_closed {p : Phase} (hp : p ≠ .closed) : p.afterMisuse = .fault := by
  cases p with
  | closed => exact absurd rfl hp
  | read | fault => rfl

/-- The whole state after a misuse of a bound block (R146). -/
theorem misuse_eq_of_not_closed {s : State} (hp : s.phase ≠ .closed) :
    s.misuse = { s with
      phase := .fault
      rsp := some ⟨.misusedStream, 0⟩, responses := s.responses ++ [⟨.misusedStream, 0⟩], inFlight := none } := by
  rw [← Phase.afterMisuse_of_not_closed hp]
  rfl

/-- Settles O27: OPEN is a binding, an IOUnavailable or a misuse, by the phase and then by its operand. -/
theorem openBindsOrReports : Obligations.OpenBindsOrReports := by
  refine ⟨fun w hlow => (Instr.hasWord_of_lowByte (i := .openSource) hlow trivial).decode_eq,
    fun s => ⟨fun h hp hs => ?_, fun hp hs => ?_, fun hp => ?_⟩⟩
  · exact execOpenSource_of_handle hp hs
  · exact execOpenSource_of_no_handle hp hs
  · exact (execOpenSource_of_not_closed hp).trans (congrArg _ (misuse_eq_of_not_closed hp))

/-! ## CLOSE (R121) -/

/-- The whole state after CLOSE's release and its answer. -/
theorem release_respond_eq (s : State) :
    s.release.respond .ok 0 = { s with
      src := none, nbits := 0, phase := .closed, fetched := 0
      rsp := some ⟨.ok, 0⟩, responses := s.responses ++ [⟨.ok, 0⟩], inFlight := none } := rfl

/-- Settles O29: CLOSE is the release and its answer, whatever the phase. -/
theorem closeReleases : Obligations.CloseReleases :=
  ⟨fun _ hlow => (Instr.hasWord_of_lowByte (i := .close) hlow trivial).decode_eq,
    fun s => congrArg Host.Outcome.next (release_respond_eq s)⟩

end Sys2Proof.Machine
end

section
/-! SUPPORT. Proofs of the statements of 60_exceptions.md: reserved words (R144), the dead phase FAULT (R147), the outcome
of every word in every phase (R149, R150), and what an error leaves unchanged (R151). -/

namespace Sys2Proof.Machine

/-! ## Reserved words (R63, R144) -/

theorem decode_eq_reserved_of_reservedNumber {w : Word} (h : ReservedNumber w.toNat) : decode w = .reserved := by
  rwa [← decode_ofNat_eq_reserved_iff, BitVec.ofNat_toNat, BitVec.setWidth_eq] at h

/-- Settles O32: a reserved word is the one misuse. -/
theorem reservedWordsAreMisuse : Obligations.ReservedWordsAreMisuse := fun _ s h =>
  (runWord_of_reserved s (decode_eq_reserved_of_reservedNumber h)).trans (congrArg _ (misuse_eq s))

/-! ## FAULT (R147) -/

theorem runWord_of_fault {w : Word} {s : State} (hp : s.phase = .fault) (hw : decode w ≠ .command .close) :
    runWord w s = .next s.misuse :=
  runWord_of_bound_not_read (by simp [hp]) hw (by simp [hp])

/-- Settles O33: CLOSE is its release, and the other words are a misuse each, by induction on their list. -/
theorem faultIsDeadUntilClose : Obligations.FaultIsDeadUntilClose := by
  refine ⟨fun s _ => ⟨_, rfl, rfl, rfl⟩, fun ws => ?_⟩
  induction ws with
  | nil => simp [issueAll]
  | cons w ws ih =>
    intro s hp hf hws
    obtain ⟨hw, hrest⟩ := List.forall_mem_cons.mp hws
    have hdead : s.misuse.phase = .fault := congrArg Phase.afterMisuse hp
    rw [issueAll_cons ws (runWord_of_fault hp hw), ih s.misuse hdead rfl hrest,
      misuse_eq_of_not_read (by simp [hp])]
    simp [hf, List.replicate_succ]

/-! ## What a word comes to (R142, R149, R150) -/

/-- The words a phase allows (R142): OPEN in CLOSED, CLOSE always, the reads in READ. -/
theorem misused_eq_false_iff (d : Decoded) (p : Phase) :
    misused d p = false ↔ (d = .command .openSource ∧ p = .closed) ∨ d = .command .close ∨
      (0 < bitsNeeded d ∧ p = .read) := by
  cases d with
  | reserved => simp [misused, bitsNeeded]
  | command i => cases i <;> simp [misused, bitsNeeded]

theorem not_misused_of_read {d : Decoded} (h : 0 < bitsNeeded d) : misused d .read = false :=
  (misused_eq_false_iff d .read).mpr (.inr (.inr ⟨h, rfl⟩))

/-- A read command is none of the lifecycle. -/
theorem ne_lifecycle_of_bitsNeeded {d : Decoded} (h : 0 < bitsNeeded d) :
    d ≠ .command .openSource ∧ d ≠ .command .close := by
  constructor <;> rintro rfl <;> exact absurd h (by decide)

/-- How a word ends, in the order of R150's checks; no read waits. -/
inductive WordEnds (w : Word) (s : State) : State → Prop where
  | misuse (h : misused (decode w) s.phase = true) : WordEnds w s s.misuse
  | unavailable (hd : decode w = .command .openSource) (hp : s.phase = .closed) (hs : s.srcIn = none) :
      WordEnds w s (s.raise .ioUnavailable)
  | opened (k : Nat) (hd : decode w = .command .openSource) (hp : s.phase = .closed) (hs : s.srcIn = some k) :
      WordEnds w s ((s.bindTo k).respond .ok 0)
  | closed (hd : decode w = .command .close) : WordEnds w s (s.release.respond .ok 0)
  | endOfData (hp : s.phase = .read) (few : s.deliverable.length < bitsNeeded (decode w)) :
      WordEnds w s (State.raise .endOfData { s with nbits := 0, requests := s.requests ++ [⟨s.cfg.capBytes, 0⟩] })
  | served (bits : List Bool) (t : State) (v : Byte) (hp : s.phase = .read) (hn : 0 < bitsNeeded (decode w))
      (enough : bitsNeeded (decode w) ≤ s.deliverable.length) (took : Took s bits t) : WordEnds w s (t.respond .ok v)

/-- A read with its bits buffered or a source that answers ends. -/
theorem runWord_read_ends {w : Word} {s : State} (h : s.Sound) (hp : s.phase = .read) (hn : 0 < bitsNeeded (decode w))
    (ha : bitsNeeded (decode w) ≤ s.nbits ∨ s.canAnswer = true) : ∃ t, runWord w s = .next t ∧ WordEnds w s t := by
  obtain ⟨op, hneed, hw, hrun⟩ := runWord_of_bitsNeeded hn
  refine ⟨resume op s, hrun s hp, ?_⟩
  rcases Nat.lt_or_ge s.deliverable.length (bitsNeeded (decode w)) with few | enough
  · obtain ⟨_, he⟩ := resume_of_too_few op s h hw (canAnswer_of_too_few ha few) (hneed ▸ few)
    rw [he]
    exact .endOfData hp few
  · obtain ⟨t, he, hk, _⟩ := resume_of_enough op s h hw (hneed ▸ ha) (hneed ▸ enough)
    rw [he]
    exact .served _ t _ hp hn enough hk

theorem runWord_ends (w : Word) {s : State} (h : s.Sound)
    (ha : s.phase = .read → bitsNeeded (decode w) ≤ s.nbits ∨ s.canAnswer = true) :
    ∃ t, runWord w s = .next t ∧ WordEnds w s t := by
  rcases runWord_cases w s with ⟨he, hclose, hread, hopen⟩ | ⟨he, hd, hp, hs⟩ | ⟨k, he, hd, hp, hs⟩ | ⟨he, hd⟩ |
    ⟨_, hd, hp⟩ | ⟨_, hd, hp⟩
  · refine ⟨_, he, .misuse ?_⟩
    rw [← Bool.not_eq_false, misused_eq_false_iff, bitsNeeded_pos_iff]
    rintro (⟨hd, hp⟩ | hd | ⟨⟨i, hd, rfl | rfl⟩, hp⟩)
    · exact hopen hp hd
    · exact hclose hd
    · exact (hread hp).1 hd
    · exact (hread hp).2 hd
  · exact ⟨_, he, .unavailable hd hp hs⟩
  · exact ⟨_, he, .opened k hd hp hs⟩
  · exact ⟨_, he, .closed hd⟩
  · exact runWord_read_ends h hp (by rw [hd]; decide) (ha hp)
  · exact runWord_read_ends h hp (by rw [hd]; decide) (ha hp)

/-! ## Status and phase by R149's table -/

theorem expected_of_misused {d : Decoded} {s : State} (h : misused d s.phase = true) :
    expectedStatus d s = .misusedStream ∧ expectedPhase d s = s.phase.afterMisuse := by
  simp [expectedStatus, expectedPhase, h, Phase.afterMisuse_eq_ite]

theorem expected_of_openSource {s : State} (hp : s.phase = .closed) :
    expectedStatus (.command .openSource) s = (if s.srcIn = none then .ioUnavailable else .ok) ∧
      expectedPhase (.command .openSource) s = (if s.srcIn = none then .closed else .read) := by
  simp [expectedStatus, expectedPhase, misused, bitsNeeded, hp]

theorem expected_of_close (s : State) :
    expectedStatus (.command .close) s = .ok ∧ expectedPhase (.command .close) s = .closed := by
  simp [expectedStatus, expectedPhase, misused, bitsNeeded]

theorem expected_of_read {d : Decoded} {s : State} (hp : s.phase = .read) (hn : 0 < bitsNeeded d) :
    expectedStatus d s = (if s.deliverable.length < bitsNeeded d then .endOfData else .ok) ∧
      expectedPhase d s = .read := by
  simp [expectedStatus, expectedPhase, hp, not_misused_of_read hn, ne_lifecycle_of_bitsNeeded hn]

/-- From `s` to `t` there is the one response of status `st`, with data only for a read that succeeds (R66), in phase `p`. -/
def AnsweredWith (w : Word) (s : State) (st : Status) (p : Phase) (t : State) : Prop :=
  ∃ d : Byte, t.rsp = some ⟨st, d⟩ ∧ t.responses = s.responses ++ [⟨st, d⟩] ∧ t.inFlight = none ∧ t.phase = p ∧
    ((bitsNeeded (decode w) = 0 ∨ st ≠ .ok) → d = 0)

theorem WordEnds.answered {w : Word} {s t : State} (h : WordEnds w s t) :
    AnsweredWith w s (expectedStatus (decode w) s) (expectedPhase (decode w) s) t := by
  cases h with
  | misuse hm =>
    obtain ⟨hst, hph⟩ := expected_of_misused hm
    rw [hst, hph]
    exact ⟨0, rfl, rfl, rfl, rfl, fun _ => rfl⟩
  | unavailable hd hp hs =>
    obtain ⟨hst, hph⟩ := expected_of_openSource hp
    rw [hd, hst, hph, if_pos hs, if_pos hs]
    exact ⟨0, rfl, rfl, rfl, hp, fun _ => rfl⟩
  | opened k hd hp hs =>
    obtain ⟨hst, hph⟩ := expected_of_openSource hp
    rw [hd, hst, hph, if_neg (by simp [hs]), if_neg (by simp [hs])]
    exact ⟨0, rfl, rfl, rfl, rfl, fun _ => rfl⟩
  | closed hd =>
    obtain ⟨hst, hph⟩ := expected_of_close s
    rw [hd, hst, hph]
    exact ⟨0, rfl, rfl, rfl, rfl, fun _ => rfl⟩
  | endOfData hp few =>
    obtain ⟨hst, hph⟩ := expected_of_read hp (Nat.zero_lt_of_lt few)
    rw [hst, hph, if_pos few]
    exact ⟨0, rfl, rfl, rfl, hp, fun _ => rfl⟩
  | served bits u v hp hn enough hk =>
    obtain ⟨hst, hph⟩ := expected_of_read hp hn
    rw [hst, hph, if_neg (Nat.not_lt.mpr enough)]
    refine ⟨v, rfl, ?_, rfl, hk.keeps.phase.trans hp, fun hzero => ?_⟩
    · rw [respond_responses, hk.keeps.responses]
    · rcases hzero with hzero | hne
      · exact absurd hzero hn.ne'
      · exact absurd rfl hne

/-- Settles O34, by how a word can end. -/
theorem outcomeTable : Obligations.OutcomeTable := by
  intro w s hinv ha
  obtain ⟨t, he, hends⟩ := runWord_ends w hinv.sound ha
  obtain ⟨d, hd⟩ := hends.answered
  exact ⟨t, d, he, hd⟩

/-! ## What an error leaves unchanged (R151) -/

/-- A read that fails with bits buffered wanted more than one (R96). -/
theorem readByte_of_too_few {d : Decoded} {s : State} (hn : s.nbits ≠ 0) (few : s.deliverable.length < bitsNeeded d) :
    d = .command .readByte ∧ s.nbits ≤ 7 := by
  rw [State.deliverable_length] at few
  obtain ⟨i, rfl, rfl | rfl⟩ := (bitsNeeded_pos_iff d).mp (Nat.zero_lt_of_lt few)
  · have : bitsNeeded (.command .readBit) = 1 := rfl
    omega
  · have : bitsNeeded (.command .readByte) = 8 := rfl
    exact ⟨rfl, by omega⟩

/-- Settles O35, by how a word can end: a misuse, IOUnavailable and EndOfData are the errors. -/
theorem errorsArePrecise : Obligations.ErrorsArePrecise := by
  intro w s t r hinv ha he hr hne
  obtain ⟨t', he', hends⟩ := runWord_ends w hinv.sound ha
  obtain rfl := Host.Outcome.next.inj (he'.symm.trans he)
  cases hends with
  | misuse hm =>
    obtain rfl := Option.some.inj hr
    exact ⟨by simp [misuse_eq, hm], nofun⟩
  | unavailable hd hp hs =>
    obtain rfl := Option.some.inj hr
    exact ⟨by simp [State.raise, State.respond, hp], nofun⟩
  | endOfData hp few =>
    obtain rfl := Option.some.inj hr
    have hm := not_misused_of_read (Nat.zero_lt_of_lt few)
    exact ⟨by simp [State.raise, State.respond, hp, hm], fun _ hn => readByte_of_too_few hn few⟩
  | opened | closed | served =>
    obtain rfl := Option.some.inj hr
    exact absurd rfl hne

end Sys2Proof.Machine
end

section
/-! SUPPORT. Proofs of the statements of 70_reset_and_hazards.md: reset and the command it abandons (R160, R161), the
host's duty (R163), hand-over (R165), a command sent early (R166), a source that never answers (R167), idleness (R171). -/

namespace Sys2Proof.Machine

/-! ## The outside world's turn, and a block that stays as it is (R166, R167, R171) -/

theorem outsideTurn_of_waiting {s : State} {op : InFlight} (hf : s.inFlight = some op) (hc : s.canAnswer = false) :
    s.outsideTurn = true := by
  simp [State.outsideTurn, hf, hc]

theorem outsideTurn_of_idle {s : State} (hf : s.inFlight = none) (hc : s.commands = []) : s.outsideTurn = true := by
  simp [State.outsideTurn, hf, hc]

theorem step_of_no_input {s : State} (ho : s.outsideTurn = true) (hi : s.inputs = []) : step s = .next s := by
  rw [step_of_outsideTurn s ho, outsideMove, hi]

/-- A state that one step leaves as it is, any number of steps leaves as it is. -/
theorem run_of_fixed {M : Host.Core} {s : M.State} (h : M.step s = .next s) (k : Nat) : M.run k s = .next s := by
  induction k with
  | zero => rfl
  | succ k ih => simp only [Host.Core.run, h, ih]

/-- Settles O39: the waiting block's step changes nothing. -/
theorem stalledSourceHangs : Obligations.StalledSourceHangs := fun _ _ hf hc hi =>
  run_of_fixed (M := core) (step_of_no_input (outsideTurn_of_waiting hf hc) hi)

/-- Settles O46: the idle block's step changes nothing. -/
theorem idleKeepsTheState : Obligations.IdleKeepsTheState := fun _ hf hc hi =>
  run_of_fixed (M := core) (step_of_no_input (outsideTurn_of_idle hf hc) hi)

/-! ## A command sent early (R166) -/

theorem ReadEnds.commands_eq {s t : State} (h : ReadEnds s t) : t.commands = s.commands := by
  cases h with
  | answered u st d hu _ => exact hu.commands
  | waits u op hu => exact hu.commands

/-- A doing that sends no command leaves the command channel alone. -/
theorem applyInput_keeps_commands {e : Input} {s t : State} (h : applyInput e s = .next t)
    (hsend : ∀ c : Command, e ≠ .command c) (hduring : ∀ (c : Command) (lost : Nat), e ≠ .resetDuring c lost) :
    t.commands = s.commands := by
  rcases applyInput_cases e s t h with ⟨c, he, _⟩ | ⟨lost, _, rfl⟩ | ⟨c, lost, he, _⟩ | ⟨k, x, _, _, rfl⟩
  · exact absurd he (hsend c)
  · exact resetBlock_commands lost s
  · exact absurd he (hduring c lost)
  · rfl

/-- A block that waits holds a command sent on the channel, also when reset comes at once (log 10). -/
theorem interruptedIn_of_waiting (c : Command) {s : State} {op : InFlight} (hf : s.inFlight = some op) :
    s.interruptedIn c = s.send c := by
  simp [State.interruptedIn, State.send, hf]

/-- Settles O38: a waiting command goes on, or the outside world moves, and only what is sent joins the channel. -/
theorem earlyCommandIsHeld : Obligations.EarlyCommandIsHeld := by
  intro s op hf
  refine ⟨fun c rest hc hi => step_of_input (outsideTurn_of_waiting hf hc) hi, fun t ht => ⟨fun hquiet => ?_, ?_⟩⟩
  · cases hc : s.canAnswer with
    | true =>
      obtain rfl := Host.Outcome.next.inj ((step_of_answered hf hc).symm.trans ht)
      exact (resume_ends op s).commands_eq
    | false =>
      have hi : s.inputs = [] := hquiet.resolve_left (by simp [hc])
      obtain rfl := Host.Outcome.next.inj ((step_of_no_input (outsideTurn_of_waiting hf hc) hi).symm.trans ht)
      rfl
  · intro e rest hc hi
    have hdone : applyInput e { s with inputs := rest } = .next t :=
      (step_of_input (outsideTurn_of_waiting hf hc) hi).symm.trans ht
    refine ⟨?_, applyInput_keeps_commands (s := { s with inputs := rest }) hdone⟩
    rintro c lost rfl
    obtain rfl := Host.Outcome.next.inj hdone
    rw [resetBlock_commands, interruptedIn_of_waiting c (s := { s with inputs := rest }) hf, send_commands]

/-! ## Reset (R160, R161) -/

/-- Settles O42: reset gives the block's fields their values, and a command cut short has changed none of the others. -/
theorem resetEvent : Obligations.ResetEvent := by
  intro s e rest ho hi hr
  cases e with
  | reset lost =>
    exact ⟨_, step_of_input ho hi, rfl, rfl, rfl, rfl, rfl, rfl, rfl, rfl, rfl, fun _ _ => rfl⟩
  | resetDuring c lost =>
    exact ⟨_, step_of_input ho hi, rfl, rfl, rfl, rfl, rfl, by simp, by simp, by simp, by simp, nofun⟩
  | command | setSource | setStalled | readError => exact absurd hr Bool.false_ne_true

/-- In the table `t` the source `s` is bound to has lost its first `n` bytes, and every other is as it was. -/
structure LosesFront (s : State) (n : Nat) (t : Sources) : Prop where
  bound : ∀ h : Nat, s.src = some h → (t.read h).remaining = (s.sources.read h).remaining.drop n
  others : ∀ k : Nat, s.src ≠ some k → t.read k = s.sources.read k

theorem LosesFront.nothing (s : State) : LosesFront s 0 s.sources := ⟨fun _ _ => rfl, fun _ _ => rfl⟩

theorem LosesFront.write {s : State} {h : Nat} (hs : s.src = some h) (hwf : s.sources.wf = true) {n : Nat} {x : Source}
    (hx : x.remaining = (s.sources.read h).remaining.drop n) : LosesFront s n (s.sources.write h x) where
  bound k hk := by
    obtain rfl := Option.some.inj (hs.symm.trans hk)
    rw [Sources.read_write_same _ _ _ hwf, hx]
  others k hk := Sources.read_write_other _ _ _ _ (fun e => hk (by rw [hs, e]))

/-- A late answer costs the bound source at most what the abandoned request asked for (R161, U11). -/
theorem discardLateAnswer_losesFront (lost : Nat) {s : State} (hwf : s.sources.wf = true) :
    ∃ n, n ≤ s.cfg.capBytes ∧ LosesFront s n (s.discardLateAnswer lost).sources := by
  unfold State.discardLateAnswer
  split
  · rename_i h _ hs
    exact ⟨_, (Nat.min_le_right _ _).trans (Nat.min_le_right _ _), .write hs hwf rfl⟩
  · exact ⟨0, Nat.zero_le _, .nothing s⟩

/-- Settles O43: reset keeps the record, and the sources but for the late answer. -/
theorem resetAbandonsTheWaitingCommand : Obligations.ResetAbandonsTheWaitingCommand := by
  intro s op lost h rest hinv hf hc hi hs
  obtain ⟨n, hn, hlost⟩ :=
    discardLateAnswer_losesFront lost (s := { s with inputs := rest }) hinv.sound.sourcesCanonical
  exact ⟨_, n, step_of_input (outsideTurn_of_waiting hf hc) hi, rfl, rfl, rfl, rfl, hn, hlost.bound h hs,
    fun k hk => hlost.others k (by simpa [hs] using hk.symm)⟩

/-- The command cut short is gone: it joins no channel, and what waits there stays (log 10). -/
theorem interruptedIn_commands_of_free (c : Command) {s : State} (hf : s.inFlight = none) :
    (s.interruptedIn c).commands = s.commands := by
  simp only [State.interruptedIn, hf]
  split <;> rfl

/-- A free block that needs no byte for its command leaves no trace when cut short (R161). -/
theorem interruptedIn_of_no_request {c : Command} {s : State} (hf : s.inFlight = none)
    (hn : ¬ (s.phase = .read ∧ s.nbits < bitsNeeded (decode c.word))) : s.interruptedIn c = s := by
  simp only [State.interruptedIn, hf]
  exact if_neg hn

/-- Settles O44: reset finds the free block cut short in the command, at a source request or with no trace of it. -/
theorem resetAbandonsTheCommandPerformed : Obligations.ResetAbandonsTheCommandPerformed := by
  intro s c lost rest hinv hf hc hi
  have hfree : State.inFlight { s with inputs := rest } = none := hf
  obtain ⟨n, hn, hlost⟩ := discardLateAnswer_losesFront lost (s := State.interruptedIn c { s with inputs := rest })
    (by rw [interruptedIn_sources]; exact hinv.sound.sourcesCanonical)
  obtain ⟨hbound, hothers⟩ := hlost
  simp only [interruptedIn_cfg, interruptedIn_src, interruptedIn_sources] at hn hbound hothers
  refine ⟨_, n, step_of_input (outsideTurn_of_idle hf hc) hi, rfl, ?_, ?_, ?_, rfl, hn, hbound, hothers,
    fun hnone => ?_⟩
  · rw [resetBlock_commands, interruptedIn_commands_of_free c hfree, hc]
  · rw [resetBlock_responses, interruptedIn_responses]
  · rw [resetBlock_requests, interruptedIn_requests]
  · rw [resetBlock_sources, interruptedIn_of_no_request hfree hnone, discardLateAnswer_of_free lost _ hfree]

/-! ## Hand-over (R165) -/

/-- Without its buffered bits the stream is what is left in the source (R45). -/
theorem State.stream_drop_nbits (s : State) : s.stream.drop s.nbits = bitSeq s.boundSource.remaining := by
  rw [State.stream, List.drop_left' s.pending_length]

/-- Settles O30: CLOSE leaves the source as it is, and OPEN starts at its next byte. -/
theorem handOverLosesBufferedBits : Obligations.HandOverLosesBufferedBits := by
  intro s t u h _ hs hk hclose hopen
  obtain rfl := Host.Outcome.next.inj hclose
  obtain rfl := Host.Outcome.next.inj
    ((execOpenSource_of_handle (s := s.release.respond .ok 0) rfl hk).symm.trans hopen)
  have hstream : (((s.release.respond .ok 0).bindTo h).respond .ok 0).stream = s.stream.drop s.nbits := by
    rw [respond_stream, bindTo_stream, State.stream_drop_nbits, State.boundSource_of s h hs, respond_sources,
      release_sources]
  exact ⟨rfl, hstream, fun hn => by rw [hstream, hn, List.drop_zero]⟩

/-! ## The host's duty (R163, R168, U8) -/

/-- A doing that changes the bytes of the bound source is refused. -/
theorem applyInput_of_disturbing {e : Input} {s : State} (h : disturbs e s = true) :
    applyInput e s = .refused .sourceDisturbed := by
  cases e with
  | setSource k x => exact if_pos (of_decide_eq_true h)
  | command | reset | resetDuring | setStalled | readError => exact absurd h Bool.false_ne_true

/-- Every other doing has its effect. -/
theorem applyInput_of_not_disturbing {e : Input} {s : State} (h : disturbs e s = false) :
    ∃ t, applyInput e s = .next t := by
  cases e with
  | setSource k x => exact ⟨_, if_neg (of_decide_eq_false h)⟩
  | command | reset | resetDuring | setStalled | readError => exact ⟨_, rfl⟩

theorem hostBehaves_eq_false_iff (s : State) : s.hostBehaves = false ↔
    s.outsideTurn = true ∧ ∃ e rest, s.inputs = e :: rest ∧ disturbs e s = true := by
  cases hi : s.inputs <;> simp [State.hostBehaves, hi]

/-- What the host does after a doing has no bearing on its duty in it. -/
theorem disturbs_with_inputs (e : Input) (s : State) (rest : List Input) :
    disturbs e { s with inputs := rest } = disturbs e s := by
  cases e <;> rfl

theorem step_of_disturbing {s : State} {e : Input} {rest : List Input} (ho : s.outsideTurn = true)
    (hi : s.inputs = e :: rest) (hd : disturbs e s = true) : step s = .refused .sourceDisturbed := by
  rw [step_of_input ho hi, applyInput_of_disturbing ((disturbs_with_inputs e s rest).trans hd)]

/-- When it is not the outside world's turn the block moves, and no move of the block stops the machine. -/
theorem step_of_blockTurn {s : State} (ho : s.outsideTurn = false) : ∃ t, step s = .next t := by
  cases hf : s.inFlight with
  | some op =>
    have hc : s.canAnswer = true := by simpa [State.outsideTurn, hf] using ho
    exact ⟨_, step_of_answered hf hc⟩
  | none =>
    cases hc : s.commands with
    | nil => simp [outsideTurn_of_idle hf hc] at ho
    | cons c rest =>
      rw [step_of_free hf hc]
      exact runWord_next c.word (s.accept c rest)

theorem step_of_hostBehaves {s : State} (h : s.hostBehaves = true) : ∃ t, step s = .next t := by
  cases ho : s.outsideTurn with
  | false => exact step_of_blockTurn ho
  | true =>
    cases hi : s.inputs with
    | nil => exact ⟨s, step_of_no_input ho hi⟩
    | cons e rest =>
      have hd : disturbs e s = false := by simpa [State.hostBehaves, ho, hi] using h
      rw [step_of_input ho hi]
      exact applyInput_of_not_disturbing ((disturbs_with_inputs e s rest).trans hd)

/-- Settles O48: a step goes on when the host behaves, and otherwise its doing is the one refused. -/
theorem onlyADisturbedSourceStops : Obligations.OnlyADisturbedSourceStops := by
  refine ⟨fun s r hr => ?_, fun s => step_of_hostBehaves, fun s e rest => step_of_disturbing⟩
  cases hb : s.hostBehaves with
  | true =>
    obtain ⟨t, ht⟩ := step_of_hostBehaves hb
    simp [ht] at hr
  | false =>
    obtain ⟨ho, e, rest, hi, hd⟩ := (hostBehaves_eq_false_iff s).mp hb
    exact ⟨(Host.Outcome.refused.inj ((step_of_disturbing ho hi hd).symm.trans hr)).symm, rfl⟩

end Sys2Proof.Machine
end
